-- ==== Sys2Proof/Word.lean ====
section
/-! DEFINITION. The word types of the block (00_scope.md R5, R6): every value is unsigned, bit `i` has weight `2^i`. -/

namespace Sys2Proof

/-- A command word `CW = {cmd_op, cmd_data}`, 34 bits (R63). -/
abbrev CmdWord := BitVec 34

/-- A response word `RW = {rsp_status, rsp_data}`, 35 bits (R64). -/
abbrev RspWord := BitVec 35

/-- The 32-bit operand field `cmd_data` (R63): a precision or a hash. -/
abbrev Operand := BitVec 32

/-- The 33-bit result field `rsp_data` (R64). -/
abbrev Result := BitVec 33

/-- One entry of the register bank, `RANK_W = 5` bits (R22). -/
abbrev Entry := BitVec 5

/-- An entry's index in the bank of `M_MAX = 65536` entries (R22, R40). -/
abbrev Index := BitVec 16

end Sys2Proof
end

