-- ==== Sys2Proof/Config.lean ====
section
/-! DEFINITION. The parameters of the block (00_scope.md R5): what the spec fixes, and the values it leaves OPEN. -/

namespace Sys2Proof.Config

/-- `HASH_W`: the width of a hash (R5). -/
abbrev hashW : Nat := 32

/-- `PMIN`: the least precision (R5). -/
abbrev pMin : Nat := 4

/-- `PMAX`: the greatest precision (R5). -/
abbrev pMax : Nat := 16

/-- `M_MAX`: the physical depth of the bank (R5, R22). -/
abbrev mMax : Nat := 65536

/-- `RANK_MAX(p)`: the greatest rank at precision `p`, that of the all-zero remainder (R5, R85). -/
abbrev rankMax (p : Nat) : Nat := 33 - p

/-- `FRAC`: the fraction bits of the harmonic-sum accumulator (R5, R121). -/
abbrev frac : Nat := 29

/-- `ACC_W`: the width of the harmonic-sum accumulator (R5, R121). -/
abbrev accW : Nat := 46

/-- `V_W`: the width of the zero count (R5, R92). -/
abbrev vW : Nat := 17

/-- `EST_W`: the width of the estimate (R5, R129). -/
abbrev estW : Nat := 33

/-! ### The latencies (OPEN: R181, D22; log 8)

The clock edges from the acceptance of a command to `rsp_valid`: free values, finite and otherwise unconstrained. R181 lets
them depend on `P` and on the data, so each is a function of the state the command is accepted in (`CFG`, `P`, the bank as
listed) and of its operand; and of `n`, how many commands were accepted before, so that two equal commands may differ. -/

/-- `LAT_INIT`. -/
opaque latInit : (n : Nat) → (cfg : Bool) → (p : BitVec 5) → (bank : List (Nat × Entry)) → (data : Operand) → Nat

/-- `LAT_ADD`. -/
opaque latAdd : (n : Nat) → (cfg : Bool) → (p : BitVec 5) → (bank : List (Nat × Entry)) → (data : Operand) → Nat

/-- `LAT_EST`. -/
opaque latEst : (n : Nat) → (cfg : Bool) → (p : BitVec 5) → (bank : List (Nat × Entry)) → (data : Operand) → Nat

/-- The latency of a reserved command, which R181 does not name. DESIGN CHOICE (log 8): free, like the others. -/
opaque latRsvd : (n : Nat) → (cfg : Bool) → (p : BitVec 5) → (bank : List (Nat × Entry)) → (data : Operand) → Nat

end Sys2Proof.Config
end

