-- ==== Sys2Proof/Machine/Operands.lean ====
section
/-! DEFINITION. Operand assembly (30_encoding.md R66, R67) and the combinational functions on a hash: `SPLIT`, `TZ`,
`RANK` (40_split_rank.md). -/

namespace Sys2Proof.Machine

/-- The mask of `SPLIT`, `2^p - 1` (R82). -/
def indexMask (p : Nat) : Operand :=
  BitVec.ofNat 32 (2 ^ p - 1)

/-- The bucket index `h[p-1:0] = h & (2^p - 1)` (R80). -/
def splitIndex (h : Operand) (p : Nat) : Index :=
  (h &&& indexMask p).setWidth 16

/-- The remainder `w = h[31:p] = h >> p`, right-aligned (R80). -/
def splitRemainder (h : Operand) (p : Nat) : Operand :=
  h >>> p

/-- `SPLIT(h, p) = (index, w)` (R80). -/
def split (h : Operand) (p : Nat) : Index × Operand :=
  (splitIndex h p, splitRemainder h p)

/-- `TZ(w)`: the least `i` with `w[i] = 1` (R83). `TZ(0)` is not defined by the spec and never evaluated (R85); 32 stands
there. -/
def tz (w : Operand) : Nat :=
  ((List.range 32).find? fun i => w.getLsbD i).getD 32

/-- `RANK(w, p)`: `TZ(w) + 1`, and `33 - p` for the all-zero remainder (R84, R85, R86). -/
def rank (w : Operand) (p : Nat) : Nat :=
  if w ≠ 0#32 then tz w + 1 else Config.rankMax p

end Sys2Proof.Machine
end

