-- ==== Sys2Proof/Syntax.lean ====
section
/-! DEFINITION. The commands of the block (30_encoding.md R65; one constructor per row of opcode_table.json), the status
codes of its responses (R70), and a command line of the spec's textual notation (R72). -/

namespace Sys2Proof

/-- A command (R65). `EST` and the reserved opcode keep their ignored operand, so that every one of the `2^34` command
words is one command and no bit of a word is lost (R63, R68, R69; log 14). -/
inductive Instr where
  /-- `INIT p`, op `00` (R100): the whole 32-bit operand is the precision (R66). -/
  | init (pv : Operand)
  /-- `ADD h`, op `01` (R110): the whole operand is the hash (R67). -/
  | add (h : Operand)
  /-- `EST`, op `10` (R120): the operand is ignored (R68). -/
  | est (x : Operand)
  /-- The reserved opcode, op `11` (R69): the operand is ignored. -/
  | rsvd (d : Operand)
deriving DecidableEq, Repr

/-- `ADDV value`, the host's pseudo-command (R72, R113): it stands for `ADD HASH(value)`. `HASH` is OPEN (D23): an
argument, over whatever values it is defined for (log 13). -/
def Instr.addv {Value : Type} (hash : Value → Operand) (value : Value) : Instr :=
  .add (hash value)

/-- The status of a response (R70). -/
inductive Status where
  /-- `OK`: the command completed. -/
  | ok
  /-- `INVALID_PRECISION`: the operand of `INIT` lies outside the closed range [4, 16] (R141). -/
  | invalidPrecision
  /-- `NOT_CONFIGURED`: `ADD` or `EST` while `CFG = 0` (R142). -/
  | notConfigured
  /-- `ILLEGAL_COMMAND`: the reserved opcode (R143). -/
  | illegalCommand
deriving DecidableEq, Repr

/-- The four mnemonics of the textual notation (R72). -/
inductive Mnemonic where
  | init
  | add
  | est
  | rsvd
deriving DecidableEq, Repr

/-- A line of the textual notation (R72): a mnemonic and the number written after it, if there is one. -/
structure Line where
  mnemonic : Mnemonic
  operand : Option Nat
deriving DecidableEq, Repr

end Sys2Proof
end

