-- ==== Sys2Proof/WellFormed.lean ====
section
/-! DEFINITION. Well-formedness: of a command (all are: 30_encoding.md R63, R67, R73), of a number taken as a command
word (R63: 34 bits) and of a line of text (R72). -/

namespace Sys2Proof

/-- Every command is well-formed: every 34-bit value is a command word and decoding is total (R63, R73). An `INIT` with a
precision out of range is a well-formed command that is answered with an error (R101). -/
def Instr.wellFormed : Instr → Bool
  | .init _ => true
  | .add _ => true
  | .est _ => true
  | .rsvd _ => true

/-- A number is a command word if it fits the 34 bits of the one command format (R63). -/
def wellFormedWord (w : Nat) : Bool :=
  decide (w < 2 ^ 34)

/-- A line is well-formed if its operand is an unsigned number below `2^32`, and only `EST` stands without one (R72). -/
def Line.wellFormed (l : Line) : Bool :=
  match l.operand with
  | none => decide (l.mnemonic = .est)
  | some n => decide (n < 2 ^ 32)

end Sys2Proof
end

