-- ==== Sys2Proof/Decode.lean ====
section
/-! DEFINITION. Decoding and encoding of command words (30_encoding.md R63, R65, R73), of response words (R64, R70), and
the spec's textual notation (R72). -/

namespace Sys2Proof

/-! ### Command words -/

/-- The opcode field `op = CW[33:32]` (R63, R65). -/
def opField (w : CmdWord) : BitVec 2 :=
  w.extractLsb' 32 2

/-- The operand field `data = CW[31:0]` (R63). -/
def dataField (w : CmdWord) : Operand :=
  w.extractLsb' 0 32

/-- The decoder: `op` alone selects the command, for every word (R65, R73). -/
def decode (w : CmdWord) : Instr :=
  if opField w = 0b00#2 then .init (dataField w)
  else if opField w = 0b01#2 then .add (dataField w)
  else if opField w = 0b10#2 then .est (dataField w)
  else .rsvd (dataField w)

/-- The opcode of a command (R65). -/
def Instr.opcode : Instr → BitVec 2
  | .init _ => 0b00#2
  | .add _ => 0b01#2
  | .est _ => 0b10#2
  | .rsvd _ => 0b11#2

/-- The operand of a command, as it stands in the word (R63). -/
def Instr.operand : Instr → Operand
  | .init pv => pv
  | .add h => h
  | .est x => x
  | .rsvd d => d

/-- The encoder: `CW = {op, data}` (R63, R65). -/
def encode (i : Instr) : CmdWord :=
  i.opcode ++ i.operand

/-- Why a number is no command word. -/
inductive Reject where
  /-- It has a bit above bit 33: the command word has 34 bits (R63). Raised by `decodeNumber`. -/
  | widerThanCommandWord
deriving DecidableEq, Repr

/-- The decoder on any number: total, and what is no command word is rejected by name (R63; log 15). -/
def decodeNumber (w : Nat) : Except Reject Instr :=
  if wellFormedWord w then .ok (decode (BitVec.ofNat 34 w)) else .error .widerThanCommandWord

/-- The command read from a word of the opcode table: its low `nbits` bits are those of `w`, all above are 0. -/
def decodeTableWord (nbits w : Nat) : Option Instr :=
  (decodeNumber (w % 2 ^ nbits)).toOption

/-! ### Response words -/

/-- The code of a status (R70). -/
def Status.code : Status → BitVec 2
  | .ok => 0b00#2
  | .invalidPrecision => 0b01#2
  | .notConfigured => 0b10#2
  | .illegalCommand => 0b11#2

/-- The response word `RW = {status, data}` (R64). -/
def encodeResponse (st : Status) (data : Result) : RspWord :=
  st.code ++ data

/-- The status field `RW[34:33]` (R64). -/
def rspStatus (r : RspWord) : BitVec 2 :=
  r.extractLsb' 33 2

/-- The result field `RW[32:0]` (R64). -/
def rspData (r : RspWord) : Result :=
  r.extractLsb' 0 33

/-- The status a code stands for: every code stands for one (R70). -/
def statusOfCode (c : BitVec 2) : Status :=
  if c = 0b00#2 then .ok
  else if c = 0b01#2 then .invalidPrecision
  else if c = 0b10#2 then .notConfigured
  else .illegalCommand

/-! ### The textual notation (R72; log 17) -/

/-- The command a well-formed line stands for; `EST` without operand encodes `data = 0` (R72). -/
def Line.assemble (l : Line) : Option Instr :=
  if l.wellFormed then
    let data : Operand := BitVec.ofNat 32 (l.operand.getD 0)
    match l.mnemonic with
    | .init => some (.init data)
    | .add => some (.add data)
    | .est => some (.est data)
    | .rsvd => some (.rsvd data)
  else none

/-- The line that stands for a command: `EST` with operand 0 is written without it (R72). -/
def Instr.line : Instr → Line
  | .init pv => ⟨.init, some pv.toNat⟩
  | .add h => ⟨.add, some h.toNat⟩
  | .est x => ⟨.est, if x = 0#32 then none else some x.toNat⟩
  | .rsvd d => ⟨.rsvd, some d.toNat⟩

/-- A mnemonic's letters (R72). -/
def Mnemonic.letters : Mnemonic → List Char
  | .init => ['I', 'N', 'I', 'T']
  | .add => ['A', 'D', 'D']
  | .est => ['E', 'S', 'T']
  | .rsvd => ['R', 'S', 'V', 'D']

/-- The mnemonic with these letters, if there is one. -/
def mnemonicOf (cs : List Char) : Option Mnemonic :=
  [Mnemonic.init, .add, .est, .rsvd].find? fun m => m.letters = cs

/-- The value of a digit in a base of at most sixteen. -/
def digitValue (base : Nat) (c : Char) : Option Nat :=
  let n := c.toNat
  let v := if 48 ≤ n ∧ n ≤ 57 then n - 48
    else if 97 ≤ n ∧ n ≤ 102 then n - 87
    else if 65 ≤ n ∧ n ≤ 70 then n - 55
    else base
  if v < base then some v else none

/-- The number written by digits, the most significant first, after a number already read. -/
def digitsValue (base : Nat) : Nat → List Char → Option Nat
  | acc, [] => some acc
  | acc, c :: cs =>
    match digitValue base c with
    | none => none
    | some d => digitsValue base (acc * base + d) cs

/-- A number: hexadecimal with `0x`, binary with `0b`, else decimal (R72). -/
def parseNumber : List Char → Option Nat
  | [] => none
  | '0' :: 'x' :: c :: cs => digitsValue 16 0 (c :: cs)
  | '0' :: 'b' :: c :: cs => digitsValue 2 0 (c :: cs)
  | c :: cs => digitsValue 10 0 (c :: cs)

/-- The words of a line: its longest runs without a space. -/
def splitWords : List Char → List (List Char)
  | [] => []
  | ' ' :: cs => splitWords cs
  | c :: cs =>
    match cs with
    | [] => [[c]]
    | ' ' :: _ => [c] :: splitWords cs
    | _ =>
      match splitWords cs with
      | [] => [[c]]
      | w :: ws => (c :: w) :: ws

/-- A line of text: a mnemonic, and at most one number after it (R72). -/
def parseLine (text : List Char) : Option Line :=
  match splitWords text with
  | [m] => (mnemonicOf m).map fun mn => ⟨mn, none⟩
  | [m, n] => (mnemonicOf m).bind fun mn => (parseNumber n).map fun v => ⟨mn, some v⟩
  | _ => none

/-- The assembler: the command a line of text stands for. -/
def parseCommand (text : List Char) : Option Instr :=
  (parseLine text).bind Line.assemble

/-- The decimal digits of a number, the most significant first, put before what follows; `fuel` bounds their number. -/
def decimalDigits : Nat → Nat → List Char → List Char
  | 0, _, rest => rest
  | fuel + 1, n, rest =>
    let rest' := Char.ofNat (48 + n % 10) :: rest
    if n / 10 = 0 then rest' else decimalDigits fuel (n / 10) rest'

/-- A number in decimal: eleven digits hold every operand and every result (`2^33 < 10^11`). -/
def printNumber (n : Nat) : List Char :=
  decimalDigits 11 n []

/-- A line as text (R72). -/
def Line.text (l : Line) : List Char :=
  match l.operand with
  | none => l.mnemonic.letters
  | some n => l.mnemonic.letters ++ ' ' :: printNumber n

/-- A status's name (R70). -/
def Status.letters : Status → List Char
  | .ok => "OK".toList
  | .invalidPrecision => "INVALID_PRECISION".toList
  | .notConfigured => "NOT_CONFIGURED".toList
  | .illegalCommand => "ILLEGAL_COMMAND".toList

/-- A response as text, `-> <STATUS> <data>`, in decimal (R72). -/
def responseText (r : RspWord) : List Char :=
  ['-', '>', ' '] ++ (statusOfCode (rspStatus r)).letters ++ ' ' :: printNumber (rspData r).toNat

end Sys2Proof
end

