-- ==== Sys2Proof/Machine/State.lean ====
section
/-! DEFINITION. The state of the block (10_state.md R20 to R33), as plain data, its value after reset, and the reasons a
step can stop. -/

namespace Sys2Proof.Machine

/-- An entry of the bank that is not 0, with its index. -/
abbrev BankCell := Nat × Entry

/-- The block's only memory: the register bank `REG` (R22, R40). The entries that are not listed read as
`Memory.unlisted`; the listed ones stand in the canonical form `Memory.wf` (log 4). -/
abbrev Memory := List BankCell

/-- What an entry that is not listed reads as: 0, the value `CLEAR` gives the live entries (R93). That entries no command
has written read as 0 too is a DESIGN CHOICE: the spec leaves them unspecified and unobservable (R32, log 2). -/
def Memory.unlisted : Entry := 0#5

/-- The canonical form from index `lo` up: indexes rise strictly, lie in the bank (R22), and no listed entry equals
`Memory.unlisted`. -/
def Memory.wfFrom : Nat → Memory → Bool
  | _, [] => true
  | lo, (j, v) :: rest =>
    decide (lo ≤ j) && decide (j < 65536) && decide (v ≠ Memory.unlisted) && Memory.wfFrom (j + 1) rest

/-- The canonical form: equal banks are equal lists. -/
def Memory.wf (m : Memory) : Bool :=
  Memory.wfFrom 0 m

/-- What the host does next at the block's ports (30_encoding.md R60, R61; 70_reset_and_hazards.md R170, R171), as one
transaction (R62). The model's own type (log 1). -/
inductive HostAction where
  /-- The host offers a command word and takes the response (R62). -/
  | command (w : CmdWord)
  /-- The host asserts `rst` while no command is in the block (R170). -/
  | reset
  /-- The host offers a command word and asserts `rst` after it is accepted and before its response is delivered (R171);
  `ran` says whether the block had carried the command out by then (log 9). -/
  | abandoned (w : CmdWord) (ran : Bool)
deriving DecidableEq, Repr

/-- The state of the block, and the two lists that stand for the host at its ports. -/
structure State where
  /-- `CFG`, 1 bit (R20): an estimator exists. -/
  cfg : Bool
  /-- `P`, 5 bits (R21): the precision. -/
  p : BitVec 5
  /-- `REG[0..65535]`, 5 bits each (R22). -/
  reg : Memory
  /-- The command word held while it is executed (R33). -/
  cmd : Option CmdWord
  /-- The response word held until the host takes it (R33, R61). -/
  rsp : Option RspWord
  /-- The model's own: what the host does from now on, the next action first (log 1). -/
  pending : List HostAction
  /-- The model's own: the response words delivered so far, the oldest first (log 1). -/
  taken : List RspWord
deriving DecidableEq, Repr

/-- Right after reset (R32, R170): `CFG = 0`, no command and no response held. `P` and `REG` are unspecified there: 0 is a
DESIGN CHOICE (log 2). No host action is pending and no response has been delivered. -/
def State.reset : State where
  cfg := false
  p := 0#5
  reg := []
  cmd := none
  rsp := none
  pending := []
  taken := []

/-- Why the machine stops with a fault: never. R11: "no command hangs, faults the block or leaves a partial update";
R146: "once configured, the data commands never fail". An error of a command is its response (R140), a next state. -/
inductive Fault where
deriving DecidableEq, Repr

/-- Why the machine gives no meaning. -/
inductive Refusal where
  /-- Raised by an arm of `exec` that has no meaning yet (no arm of this model). Safe. -/
  | notModelled (mnemonic : String)
  /-- Raised by `Clocked.tick` when the host changes the command word it offers while the block is not ready for it, which
  R61 forbids and 93_implementation_defined.md U15 says to refuse. Safe: nothing is claimed of such a host (log 10). -/
  | brokenHandshake
deriving DecidableEq, Repr

end Sys2Proof.Machine
end

