-- ==== Sys2Proof/Machine/Ops.lean ====
section
/-! DEFINITION. The named operations over the register bank (20_memory.md R45, 41_register_bank.md), the answer of a
command (30_encoding.md R64), taking an error (60_exceptions.md R149), and what happens at the ports (R61, R62, R170). -/

namespace Sys2Proof.Machine

/-! ### The register bank -/

/-- `BankRead(j)`: the whole entry `REG[j]` (R9, R45). -/
def Memory.read : Memory → Nat → Entry
  | [], _ => Memory.unlisted
  | (k, v) :: rest, j => if k = j then v else Memory.read rest j

/-- The entry `j` with value `v` before the entries above it: listed only if it is not what an unlisted entry reads as. -/
def Memory.listed (j : Nat) (v : Entry) (rest : Memory) : Memory :=
  if v = Memory.unlisted then rest else (j, v) :: rest

/-- `BankWrite(j, v)`: replaces the whole entry `REG[j]` and changes no other (R9, R45). -/
def Memory.write : Memory → Nat → Entry → Memory
  | [], j, v => Memory.listed j v []
  | (k, x) :: rest, j, v =>
    if j < k then Memory.listed j v ((k, x) :: rest)
    else if j = k then Memory.listed j v rest
    else (k, x) :: Memory.write rest j v

/-- `UPDATE(j, r)`: `REG[j] <- max(REG[j], r)` (R90). -/
def Memory.update (m : Memory) (j r : Nat) : Memory :=
  m.write j (BitVec.ofNat 5 (max (m.read j).toNat r))

/-- `CLEAR(p)`: `REG[j] <- 0` for `j` in `0 .. 2^p - 1`; entries at or above `2^p` are left as they were (R93). -/
def Memory.clear (m : Memory) (p : Nat) : Memory :=
  m.filter fun c => decide (2 ^ p ≤ c.1)

/-- The listed live entries, `REG[j]` with `j < 2^p` (R23): the live registers that are not 0. -/
def Memory.live (m : Memory) (p : Nat) : Memory :=
  m.filter fun c => decide (c.1 < 2 ^ p)

/-- `COUNTZERO()`: the number of live registers that are 0 (R92), as the number of live registers, `2^p`, less the listed
ones (log 6). -/
def Memory.countZero (m : Memory) (p : Nat) : Nat :=
  2 ^ p - (m.live p).length

/-! ### The answer of a command -/

/-- `respond(status, data)`: produces the command's one response word and ends the command (R9, R62, R64). -/
def State.respond (status : Status) (data : Result) (s : State) : State :=
  { s with cmd := none, rsp := some (encodeResponse status data) }

/-- `raise <Error>(info)`: taking an error. No state is written, the response carries the code and `info`, the command is
over (R9, R149). There is nothing to return from and no return command (R152). -/
def State.raise (error : Status) (info : Result) (s : State) : State :=
  s.respond error info

/-! ### State changes of the commands -/

/-- What a successful `INIT` writes: `P`, the live entries of the new lifetime, `CFG` (R100, R104). -/
def State.configure (pv : Operand) (s : State) : State :=
  { s with cfg := true, p := pv.extractLsb' 0 5, reg := s.reg.clear pv.toNat }

/-- `UPDATE` on the block's bank (R90). -/
def State.update (j : Index) (r : Nat) (s : State) : State :=
  { s with reg := s.reg.update j.toNat r }

/-! ### The ports -/

/-- A command word is accepted: the block holds it while it is executed (R33, R61). -/
def State.accept (w : CmdWord) (s : State) : State :=
  { s with cmd := some w }

/-- The response word held is delivered to the host (R61); with none held, nothing happens. -/
def State.deliver (s : State) : State :=
  match s.rsp with
  | none => s
  | some r => { s with rsp := none, taken := s.taken ++ [r] }

/-- A clock edge with `rst = 1` (R170): `CFG <- 0`; a command or response in the block is discarded (R33, R171); `P` and
`REG` are not written. -/
def State.resetEdge (s : State) : State :=
  { s with cfg := false, cmd := none, rsp := none }

/-- The host's next action is under way. -/
def State.withPending (rest : List HostAction) (s : State) : State :=
  { s with pending := rest }

/-- `cmd_ready` while `rst = 0`: no command is between acceptance and the delivery of its response (R62). -/
def State.idle (s : State) : Bool :=
  s.cmd.isNone && s.rsp.isNone

end Sys2Proof.Machine
end

