-- ==== Sys2Proof/Machine/AddCommand.lean ====
section
/-! DEFINITION. The meaning of `ADD` (43_add.md). -/

namespace Sys2Proof.Machine

/-- `ADD h` (R110, R142): without an estimator it is refused; with one, the entry at the hash's index is raised to the
rank of its remainder, and the command cannot fail. -/
def execAdd (h : Operand) (s : State) : Host.Outcome State Fault Refusal :=
  if s.cfg then
    let (index, w) := split h s.p.toNat
    .next ((s.update index (rank w s.p.toNat)).respond .ok 0#33)
  else .next (s.raise .notConfigured 0#33)

end Sys2Proof.Machine
end

