-- ==== Sys2Proof/Machine/Flags.lean ====
section
/-! DEFINITION. The conditions the commands decide on. The block has no flags and no condition codes (10_state.md R29);
its data-dependent choices stand inside single commands (30_encoding.md R71). -/

namespace Sys2Proof.Machine

/-- The validity test of `INIT`: the whole 32-bit operand lies in the closed range [`PMIN`, `PMAX`] (R100, R101). -/
def validPrecision (pv : Operand) : Bool :=
  decide (Config.pMin ≤ pv.toNat) && decide (pv.toNat ≤ Config.pMax)

/-- `ANUM(p)`: the numerator of the bias constant `alpha(p)` (R102). -/
def alphaNum (p : Nat) : Nat :=
  if p = 4 then 673
  else if p = 5 then 697
  else if p = 6 then 709
  else 7213 * 2 ^ p

/-- `ADEN(p)`: the denominator of the bias constant `alpha(p)` (R102). -/
def alphaDen (p : Nat) : Nat :=
  if p = 4 ∨ p = 5 ∨ p = 6 then 1000 else 10000 * 2 ^ p + 10790

/-- The small-range predicate `E <= 2.5 m`, multiplied out (R120, R124). -/
def small (p sint : Nat) : Bool :=
  decide (2 * alphaNum p * 2 ^ p * 2 ^ Config.frac ≤ 5 * alphaDen p * sint)

end Sys2Proof.Machine
end

