-- ==== Sys2Proof/Machine/Aggregate.lean ====
section
/-! DEFINITION. The aggregation of `EST` (44_estimate.md): the harmonic sum, the raw estimate, the linear-counting value,
the selection. All arithmetic is exact, over the natural numbers (00_scope.md R8, R10). -/

namespace Sys2Proof.Machine

/-- `Sint = sum over j in 0 .. 2^p - 1 of 2^(29 - REG[j])` (R121). A live register that is not listed is 0 and adds `2^29`
(R135); the listed ones add their own terms, in any order (R121, R133; log 6). -/
def Memory.harmonicSum (m : Memory) (p : Nat) : Nat :=
  m.countZero p * 2 ^ Config.frac + ((m.live p).map fun c => 2 ^ (Config.frac - c.2.toNat)).sum

/-- `floor(E) = (ANUM m^2 2^29) div (ADEN Sint)` (R123, R128). -/
def rawEstimate (p sint : Nat) : Nat :=
  alphaNum p * (2 ^ p) ^ 2 * 2 ^ Config.frac / (alphaDen p * sint)

/-! ### The linear-counting value

`LC(p, V) = floor(m ln(m / V))`, `m = 2^p` (R126). How it is computed is not specified: any evaluation with an absolute
error below `3.7e-6` gives the same value (R127 (e), D10). This one rounds down, in fixed point with 56 fraction bits
(log 7): `m / V = 2^e f` with `1 <= f < 2`, and `ln f = 2 atanh(z)`, `z = (f - 1) / (f + 1) < 1/3`. -/

/-- The fraction bits of the logarithm. -/
def lnFrac : Nat := 56

/-- The terms `t / (2k + 1) + t z^2 / (2k + 3) + ...`, `n` of them, each rounded down; `z^2 = a2 / b2`. -/
def atanhTerms (a2 b2 : Nat) : Nat → Nat → Nat → Nat
  | 0, _, _ => 0
  | n + 1, k, t => t / (2 * k + 1) + atanhTerms a2 b2 n (k + 1) (t * a2 / b2)

/-- `ln((b + a) / (b - a)) = 2 atanh(a / b)` for `0 <= a / b <= 1/3`, scaled by `2^56`, rounded down. -/
def lnPart (a b : Nat) : Nat :=
  2 * atanhTerms (a * a) (b * b) 18 0 (2 ^ lnFrac * a / b)

/-- `ln 2 = 2 atanh(1/3)`, scaled by `2^56`, rounded down. -/
def ln2 : Nat := lnPart 1 3

/-- `ln(2^p / v)` for `1 <= v <= 2^p`, scaled by `2^56`, rounded down. -/
def lnRatio (p v : Nat) : Nat :=
  let e := Nat.log2 (2 ^ p / v)
  e * ln2 + lnPart (2 ^ p - v * 2 ^ e) (2 ^ p + v * 2 ^ e)

/-- `LC(p, V) = floor(2^p ln(2^p / V))` (R126). -/
def linearCount (p v : Nat) : Nat :=
  2 ^ p * lnRatio p v / 2 ^ lnFrac

/-! ### The result -/

/-- The selection of the result, all four cases (R120, R125): the linear-counting value if the raw estimate is small and
a live register is 0, else the raw estimate truncated. There is no large-range correction (R132). -/
def selectEstimate (p sint v : Nat) : Nat :=
  if small p sint && decide (v ≠ 0) then linearCount p v else rawEstimate p sint

/-- The estimate of a bank at precision `p` (R120). -/
def Memory.estimate (m : Memory) (p : Nat) : Nat :=
  selectEstimate p (m.harmonicSum p) (m.countZero p)

end Sys2Proof.Machine
end

