-- ==== Sys2Proof/Machine/EstCommand.lean ====
section
/-! DEFINITION. The meaning of `EST` (44_estimate.md). -/

namespace Sys2Proof.Machine

/-- `EST` (R120, R130, R142; the operand is ignored, R68): without an estimator it is refused; with one, it answers the
estimate and writes nothing. -/
def execEst (_x : Operand) (s : State) : Host.Outcome State Fault Refusal :=
  if s.cfg then .next (s.respond .ok (BitVec.ofNat 33 (s.reg.estimate s.p.toNat)))
  else .next (s.raise .notConfigured 0#33)

end Sys2Proof.Machine
end

