-- ==== Sys2Proof/Machine/InitCommand.lean ====
section
/-! DEFINITION. The meaning of `INIT` (42_init.md). -/

namespace Sys2Proof.Machine

/-- `INIT p` (R100, R104, R105, R141): a precision in [4, 16] starts a new lifetime, whatever the state was; any other
operand is refused with itself as the offending value, and changes nothing. -/
def execInit (pv : Operand) (s : State) : Host.Outcome State Fault Refusal :=
  if validPrecision pv then .next ((s.configure pv).respond .ok 0#33)
  else .next (s.raise .invalidPrecision (pv.setWidth 33))

end Sys2Proof.Machine
end

