-- ==== Sys2Proof/Machine/RsvdCommand.lean ====
section
/-! DEFINITION. The meaning of the reserved opcode (30_encoding.md R69). -/

namespace Sys2Proof.Machine

/-- Every word with `op = 11` is answered with `ILLEGAL_COMMAND` and `data = 0`, configured or not; the operand is ignored
and the state unchanged (R69, R143). -/
def execRsvd (_d : Operand) (s : State) : Host.Outcome State Fault Refusal :=
  .next (s.raise .illegalCommand 0#33)

end Sys2Proof.Machine
end

