-- ==== Sys2Proof/Machine/Dispatch.lean ====
section
/-! DEFINITION. The meaning of every command (30_encoding.md R65, R73). -/

namespace Sys2Proof.Machine

def exec (i : Instr) (s : State) : Host.Outcome State Fault Refusal :=
  match i with
  | .init pv => Sys2Proof.Machine.execInit pv s
  | .add h => Sys2Proof.Machine.execAdd h s
  | .est x => Sys2Proof.Machine.execEst x s
  | .rsvd d => Sys2Proof.Machine.execRsvd d s

end Sys2Proof.Machine
end

