-- ==== Sys2Proof/Machine/Transaction.lean ====
section
/-! DEFINITION. One transaction: the host's next action at the ports, with the command it may bring carried out and
answered (30_encoding.md R61, R62; 70_reset_and_hazards.md R170, R171, R181). -/

namespace Sys2Proof.Machine

/-- The command word `w`, held in the block, is carried out and its response delivered (R62). -/
def complete (w : CmdWord) (s : State) : Host.Outcome State Fault Refusal :=
  match exec (decode w) s with
  | .next t => .next t.deliver
  | .fault r => .fault r
  | .refused r => .refused r

/-- The command word `w`, held in the block, is abandoned by a reset (R171), after it was carried out or before. -/
def abandon (w : CmdWord) (ran : Bool) (s : State) : Host.Outcome State Fault Refusal :=
  if ran then
    match exec (decode w) s with
    | .next t => .next t.resetEdge
    | .fault r => .fault r
    | .refused r => .refused r
  else .next s.resetEdge

/-- The host's action on a block that holds neither a command nor a response. -/
def act (a : HostAction) (s : State) : Host.Outcome State Fault Refusal :=
  match a with
  | .command w => complete w (s.accept w)
  | .reset => .next s.resetEdge
  | .abandoned w ran => abandon w ran (s.accept w)

/-- One transaction. What is in the block is finished first (log 18); then the host's next action happens; without one the
block waits (R28). -/
def transact (s : State) : Host.Outcome State Fault Refusal :=
  match s.rsp, s.cmd, s.pending with
  | some _, _, _ => .next s.deliver
  | none, some w, _ => complete w s
  | none, none, a :: rest => act a (s.withPending rest)
  | none, none, [] => .next s

end Sys2Proof.Machine
end

