-- ==== Sys2Proof/Machine/Step.lean ====
section
/-! DEFINITION. The step of the machine: one transaction at the block's ports (30_encoding.md R62; 70_reset_and_hazards.md
R181: "a model treats each command as one step"), and the placing of a command where the next step takes it (log 1). -/

namespace Sys2Proof.Machine

/-- One step (R62, R181). -/
def step (s : State) : Host.Outcome State Fault Refusal :=
  transact s

/-- `s` with the command word `w` (its low `nbits` bits) offered by the host as its next action, to a block that is ready
for it (R28, R62: commands come from the host, there is no program store; log 1). -/
def State.withFetchWord (s : State) (nbits w : Nat) : State :=
  { s with
    cmd := none
    rsp := none
    pending := .command (BitVec.ofNat 34 (w % 2 ^ nbits)) :: s.pending }

end Sys2Proof.Machine
end

