-- ==== Sys2Proof/Machine/Ports.lean ====
section
/-! DEFINITION. The block at its pins, one rising edge of `clk` at a time (30_encoding.md R60 to R62; 70_reset_and_hazards.md
R170, R171, R181). This is the means of delivery of the commands (R62), around the same `State` and the same `exec`; no
rule depends on the number of edges, and `step` is the machine at the transaction level. -/

namespace Sys2Proof.Machine

/-- The input pins at a rising edge (R60). -/
structure Pins where
  rst : Bool
  cmdValid : Bool
  cmdOp : BitVec 2
  cmdData : Operand
  rspReady : Bool
deriving DecidableEq, Repr

/-- `CW = {cmd_op, cmd_data}` (R63). -/
def Pins.word (pins : Pins) : CmdWord :=
  pins.cmdOp ++ pins.cmdData

/-- The output pins before a rising edge (R60). `rsp` is the word on `rsp_status` and `rsp_data` while `rsp_valid = 1`; the
spec says nothing of those lines while `rsp_valid = 0` (log 11). -/
structure Outputs where
  cmdReady : Bool
  rsp : Option RspWord
deriving DecidableEq, Repr

/-- The block between two edges: its state, and what the clock-edge view adds. -/
structure Clocked where
  /-- The state of the block. -/
  st : State
  /-- The edges that still pass before the edge at which the command in execution is carried out (R181). -/
  wait : Nat
  /-- The model's own: how many commands have been accepted, an argument of the free latency (log 8). -/
  count : Nat
  /-- The command word the host offered at the last edge and that was not accepted (R61). -/
  offer : Option CmdWord
  /-- The model's own record: the command words accepted since the last reset, the oldest first (log 12). -/
  accepted : List CmdWord
  /-- The model's own record: the response words delivered since the last reset, the oldest first (log 12). -/
  answered : List RspWord
deriving DecidableEq, Repr

/-- The block right after reset, nothing accepted and nothing answered. -/
def Clocked.reset : Clocked where
  st := State.reset
  wait := 0
  count := 0
  offer := none
  accepted := []
  answered := []

/-- The outputs (R60): `cmd_ready` while no command is in the block (R62), `rsp_valid` while a response is held, both 0
while `rst = 1` (R170). They do not look at `cmd_valid` or `rsp_ready`: "neither side may make its `valid` wait for the
other's `ready`" (R61). -/
def Clocked.outputs (c : Clocked) (rst : Bool) : Outputs where
  cmdReady := !rst && c.st.idle
  rsp := if rst then none else c.st.rsp

/-- The latency of a command that is accepted in the state `s`, after `n` others (R181, D22): a free value (log 8). -/
def latency (i : Instr) (n : Nat) (s : State) : Nat :=
  match i with
  | .init pv => Config.latInit n s.cfg s.p s.reg pv
  | .add h => Config.latAdd n s.cfg s.p s.reg h
  | .est x => Config.latEst n s.cfg s.p s.reg x
  | .rsvd d => Config.latRsvd n s.cfg s.p s.reg d

/-- The host's duty of R61 is broken: a command word was on offer and not accepted, and another is offered now. -/
def Clocked.broken (c : Clocked) (pins : Pins) : Bool :=
  match c.offer with
  | none => false
  | some w => pins.cmdValid && decide (pins.word ≠ w)

/-- The command word on offer after an edge that did not accept it. -/
def Pins.offered (pins : Pins) : Option CmdWord :=
  if pins.cmdValid then some pins.word else none

/-- An edge with `rst = 1` (R170, R171). -/
def Clocked.onReset (c : Clocked) : Clocked :=
  { c with st := c.st.resetEdge, wait := 0, offer := none, accepted := [], answered := [] }

/-- The command word on the port is accepted (R61): the block holds it, with `n` edges to pass before the edge at which it
is carried out. -/
def Clocked.onAccept (c : Clocked) (w : CmdWord) (n : Nat) : Clocked :=
  { c with
    st := c.st.accept w
    wait := n
    count := c.count + 1
    offer := none
    accepted := c.accepted ++ [w] }

/-- The command word `w`, held in the block, is carried out: its response is held from this edge on. -/
def Clocked.carryOut (c : Clocked) (w : CmdWord) : Host.Outcome Clocked Fault Refusal :=
  match exec (decode w) c.st with
  | .next t => .next { c with st := t }
  | .fault r => .fault r
  | .refused r => .refused r

/-- An acceptance (R61, R181): with latency 0 the response is held right after the edge of acceptance, with latency `n + 1`
after `n + 1` further edges (log 11). -/
def Clocked.begin (c : Clocked) (w : CmdWord) : Host.Outcome Clocked Fault Refusal :=
  match latency (decode w) c.count c.st with
  | 0 => (c.onAccept w 0).carryOut w
  | n + 1 => .next (c.onAccept w n)

/-- The response word held is delivered (R61). -/
def Clocked.onDeliver (c : Clocked) (r : RspWord) : Clocked :=
  { c with st := c.st.deliver, answered := c.answered ++ [r] }

/-- One rising edge of `clk` (R61, R62, R170, R171). A host that breaks its duty is refused (U15, log 10). -/
def Clocked.tick (c : Clocked) (pins : Pins) : Host.Outcome Clocked Fault Refusal :=
  if pins.rst then .next c.onReset
  else if c.broken pins then .refused .brokenHandshake
  else
    match c.st.rsp, c.st.cmd, c.wait with
    | some r, _, _ =>
      let c' := { c with offer := pins.offered }
      .next (if pins.rspReady then c'.onDeliver r else c')
    | none, some _, n + 1 => .next { c with wait := n, offer := pins.offered }
    | none, some w, 0 => Clocked.carryOut { c with offer := pins.offered } w
    | none, none, _ => if pins.cmdValid then c.begin pins.word else .next { c with offer := none }

/-- The edges of a list of pins, in order, to the first that does not give a next state. -/
def Clocked.run (c : Clocked) : List Pins → Host.Outcome Clocked Fault Refusal
  | [] => .next c
  | pins :: rest =>
    match c.tick pins with
    | .next c' => c'.run rest
    | .fault r => .fault r
    | .refused r => .refused r

end Sys2Proof.Machine
end

