-- ==== Sys2Proof/Safety.lean ====
section
/-! DEFINITION. The terms claims are stated in: the invariant of the block (10_state.md R21, R25), its architectural state
(R31), the sequence function of R62, a lifetime (00_scope.md R12), and what the clock-edge view owes to it. -/

namespace Sys2Proof.Machine

/-- Every listed live entry holds at most `33 - p` (R25 (a), R94). -/
def Memory.bounded (m : Memory) (p : Nat) : Bool :=
  (m.live p).all fun c => decide (c.2.toNat ≤ Config.rankMax p)

/-- The invariant: the bank is in canonical form, and while `CFG = 1` the precision lies in [4, 16] (R21) and every live
register holds at most `33 - P` (R25 (a)). -/
abbrev State.Inv (s : State) : Prop :=
  s.reg.wf = true ∧
    (s.cfg = true → Config.pMin ≤ s.p.toNat ∧ s.p.toNat ≤ Config.pMax ∧ s.reg.bounded s.p.toNat = true)

/-- The architectural state (R31): `none`, or the estimator `(p, regs)`. In canonical form the listed live entries are
`regs` as data: two banks agree on every live register exactly if these lists are equal. -/
def State.arch (s : State) : Option (BitVec 5 × Memory) :=
  if s.cfg then some (s.p, s.reg.live s.p.toNat) else none

/-- The sequence function of R62: the commands `ws` carried out and answered one after the other. The responses are those
that `taken` gains. -/
def serve : List CmdWord → State → State
  | [], s => s
  | w :: ws, s =>
    match complete w (s.accept w) with
    | .next t => serve ws t
    | .fault _ => s
    | .refused _ => s

/-- The responses to the commands `ws` from the state `s`, in order (R62). -/
def replies (ws : List CmdWord) (s : State) : List RspWord :=
  (serve ws { s with taken := [] }).taken

/-- A command word that begins a new lifetime when it is carried out: a valid `INIT` (R12, R104). -/
def startsLifetime (w : CmdWord) : Bool :=
  match decode w with
  | .init pv => validPrecision pv
  | .add _ => false
  | .est _ => false
  | .rsvd _ => false

/-- A host action that ends the current lifetime: a valid `INIT`, or a reset (R12). -/
def HostAction.endsLifetime : HostAction → Bool
  | .command w => startsLifetime w
  | .reset => true
  | .abandoned _ _ => true

/-- What the next step carries out: nothing if a response is held (it is delivered first), else the command in the block,
else the host's next action, if there is one. -/
def State.nextAction (s : State) : Option HostAction :=
  match s.rsp, s.cmd with
  | some _, _ => none
  | none, some w => some (.command w)
  | none, none => s.pending.head?

/-- The command words of the `ADD`s among a list of command words, as their hashes, in order. -/
def addedHashes (ws : List CmdWord) : List Operand :=
  ws.filterMap fun w =>
    match decode w with
    | .init _ => none
    | .add h => some h
    | .est _ => none
    | .rsvd _ => none

/-! ### The quantities of 44_estimate.md as the rules write them, over the rationals (R10) -/

/-- `alpha(p)`, with the spec's decimal literals (R102). -/
def alpha (p : Nat) : ℚ :=
  if p = 4 then 0.673
  else if p = 5 then 0.697
  else if p = 6 then 0.709
  else 0.7213 / (1 + 1.079 / 2 ^ p)

/-- `S = sum over j in 0 .. m-1 of 2^(-REG[j])` (R121). -/
def Memory.specSum (m : Memory) (p : Nat) : ℚ :=
  ∑ j ∈ Finset.range (2 ^ p), (1 / 2 : ℚ) ^ (m.read j).toNat

/-- `V`, the number of `j` in `0 .. 2^p - 1` with `REG[j] = 0` (R92). -/
def Memory.specZeros (m : Memory) (p : Nat) : Nat :=
  ((Finset.range (2 ^ p)).filter fun j => m.read j = 0#5).card

/-- `E = alpha(p) m^2 / S` (R123). -/
def Memory.specRaw (m : Memory) (p : Nat) : ℚ :=
  alpha p * (2 ^ p) ^ 2 / m.specSum p

/-- What the clock-edge view owes to the sequence function (R62), from the last reset on: the responses delivered, and the
one held, are those of the accepted commands that have been carried out, in order; the architectural state is theirs; at
most one accepted command is not carried out yet, and no command is held beside a response. -/
def Clocked.Sim (c : Clocked) : Prop :=
  match c.st.cmd, c.st.rsp with
  | none, none => c.answered = replies c.accepted State.reset ∧ c.st.arch = (serve c.accepted State.reset).arch
  | none, some r => c.answered ++ [r] = replies c.accepted State.reset ∧ c.st.arch = (serve c.accepted State.reset).arch
  | some w, none =>
    ∃ ws, c.accepted = ws ++ [w] ∧ c.answered = replies ws State.reset ∧ c.st.arch = (serve ws State.reset).arch
  | some _, some _ => False

end Sys2Proof.Machine
end

