-- ==== Sys2Proof/Certificates/Slice0/Obligations.lean ====
section
/-! DEFINITION. The statements for the provers. They formalise the rules of spec/ over `exec`, `step` and `Clocked.tick`;
`Sys2Proof.Machine.State.Inv` and the spec's own quantities stand in Sys2Proof/Safety.lean. -/

open Sys2Proof Sys2Proof.Machine

/-- Each of the eight command words of 95_test_vectors.md 2.1 decodes to the command the table gives it. A sanity
statement on fixed words. [30_encoding.md R63 R65; 95_test_vectors.md 2.1 W1 to W8] -/
def Obligations.SpecWordsDecodeToTheirCommands : Prop :=
  decode 0x000000004#34 = .init 4#32 ∧
  decode 0x000000000#34 = .init 0#32 ∧
  decode 0x1000000D5#34 = .add 0xD5#32 ∧
  decode 0x1DEADBEEF#34 = .add 0xDEADBEEF#32 ∧
  decode 0x200000000#34 = .est 0#32 ∧
  decode 0x212345678#34 = .est 0x12345678#32 ∧
  decode 0x300000000#34 = .rsvd 0#32 ∧
  decode 0x3FFFFFFFF#34 = .rsvd 0xFFFFFFFF#32

/-- For every command, reading its word as a word of the opcode table (34 bits, or 40 with the padding to whole bytes)
gives the command back; and for every one of the 2^34 command words, encoding what it decodes to gives the word back:
no bit of an encoding is dropped. (That the syntax keeps the ignored operand of EST and of the reserved opcode, on
which the second part rests for their words, is log entry 14; the 40-bit padded form is log entry 15.) [30_encoding.md
R63 R65 R73; notes/assumptions/14.md; notes/assumptions/15.md] -/
def Obligations.DecodeAndEncodeAgreeOnEveryCommand : Prop :=
  (∀ i : Instr, i.wellFormed = true →
    decodeTableWord 34 (encode i).toNat = some i ∧ decodeTableWord 40 (encode i).toNat = some i) ∧
  (∀ w : CmdWord, encode (decode w) = w)

/-- For every command word w: op = w[33:32], and under the mask 0x300000000 w matches 0x000000000, 0x100000000,
0x200000000 or 0x300000000 exactly if it decodes to INIT, ADD, EST or the reserved command, with operand w mod 2^32.
[R65] -/
def Obligations.OpcodeMapInMatchAndMaskForm : Prop :=
  ∀ w : CmdWord,
    ((opField w).toNat = w.toNat / 2 ^ 32) ∧
    (w &&& 0x300000000#34 = 0x000000000#34 ↔ decode w = .init (BitVec.ofNat 32 w.toNat)) ∧
    (w &&& 0x300000000#34 = 0x100000000#34 ↔ decode w = .add (BitVec.ofNat 32 w.toNat)) ∧
    (w &&& 0x300000000#34 = 0x200000000#34 ↔ decode w = .est (BitVec.ofNat 32 w.toNat)) ∧
    (w &&& 0x300000000#34 = 0x300000000#34 ↔ decode w = .rsvd (BitVec.ofNat 32 w.toNat))

/-- The response word of a status and a 33-bit result is status * 2^33 + data with the status codes 0, 1, 2, 3 of R70;
both fields read back; and every 35-bit word is the response word of its own fields. [30_encoding.md R64 R70] -/
def Obligations.ResponseWordCarriesStatusAndData : Prop :=
  (∀ (st : Status) (d : Result),
    (encodeResponse st d).toNat =
      (match st with
        | .ok => 0
        | .invalidPrecision => 1
        | .notConfigured => 2
        | .illegalCommand => 3) * 2 ^ 33 + d.toNat ∧
    statusOfCode (rspStatus (encodeResponse st d)) = st ∧ rspData (encodeResponse st d) = d) ∧
  (∀ r : RspWord, encodeResponse (statusOfCode (rspStatus r)) (rspData r) = r)

/-- For every command, the text of its line in the textual notation (mnemonic, space, decimal operand; EST with
operand 0 without it) is read back as that command. The spacing and the optional operand of EST are the choices of log
entry 17. [30_encoding.md R72] -/
def Obligations.PrintedCommandReadsBack : Prop :=
  ∀ i : Instr, parseCommand i.line.text = some i

/-- If the block holds neither a command nor a response and the host next offers the word w, then step is exec of
decode w on the state that holds w with that action taken off the list, followed by the delivery of the response.
(That a step is one transaction is log entry 1.) [30_encoding.md R62; 70_reset_and_hazards.md R181;
notes/assumptions/1.md] -/
def Obligations.StepRunsTheDecodedCommand : Prop :=
  ∀ (s : State) (w : CmdWord) (rest : List HostAction),
    s.cmd = none → s.rsp = none → s.pending = .command w :: rest →
    ∃ t, exec (decode w) { s with cmd := some w, pending := rest } = .next t ∧ step s = .next t.deliver

/-- If the block holds neither a command nor a response and the host has no action pending, a step leaves the state as
it is: the block waits for the next command. [10_state.md R28; notes/assumptions/1.md] -/
def Obligations.BlockWithoutCommandWaits : Prop :=
  ∀ s : State, s.cmd = none → s.rsp = none → s.pending = [] → step s = .next s

/-- From a ready block with the command words ws pending (and any actions after them), as many steps as there are
words end in the state that carrying the commands out one after the other gives, with exactly those actions still
pending. [30_encoding.md R62; 20_memory.md R49; notes/assumptions/1.md] -/
def Obligations.PendingCommandsRunAsTheSequenceFunction : Prop :=
  ∀ (ws : List CmdWord) (rest : List HostAction) (s : State), s.cmd = none → s.rsp = none →
    s.pending = ws.map .command ++ rest →
    Sys2Proof.core.run ws.length s = .next (serve ws { s with pending := rest })

/-- For every command and every state, exec answers a next state that holds exactly one response word and no command;
the host side is untouched; and if the status is not OK, CFG, P and REG are as before: there is no third outcome.
[R11] -/
def Obligations.CommandCompletesOrIsRefusedUnchanged : Prop :=
  ∀ (i : Instr) (s : State), ∃ (t : State) (st : Status) (d : Result),
    exec i s = .next t ∧ t.rsp = some (encodeResponse st d) ∧ t.cmd = none ∧
    t.pending = s.pending ∧ t.taken = s.taken ∧
    (st ≠ .ok → t = { s with cmd := none, rsp := some (encodeResponse st d) })

/-- From every state, step answers a next state. The responses delivered grow at the end only: by exactly one if the
block held a response, held a command, or was offered one (and not abandoned by a reset), and by none otherwise. (That
a step is one transaction is log entry 1; that a step of a state that holds a response delivers it, and one of a state
that holds a command completes it, is log entry 18.) [30_encoding.md R62; 00_scope.md R11; notes/assumptions/1.md;
notes/assumptions/18.md] -/
def Obligations.EveryCommandIsAnsweredExactlyOnce : Prop :=
  ∀ s : State, ∃ (t : State) (rs : List RspWord),
    step s = .next t ∧ t.taken = s.taken ++ rs ∧
    (rs.length = 1 ↔ (s.rsp ≠ none ∨ ∃ w, s.nextAction = some (.command w))) ∧ rs.length ≤ 1

/-- For every operand and state: inside [4, 16], INIT answers a next state with CFG = 1, P = pv, every entry below
2^pv equal to 0 and every entry at or above it as before, response OK 0, nothing else changed; outside, it answers
INVALID_PRECISION with the operand as the offending value and changes nothing else. [R100; R105] -/
def Obligations.InitConfiguresOrIsRefused : Prop :=
  ∀ (pv : Operand) (s : State),
    (4 ≤ pv.toNat ∧ pv.toNat ≤ 16 → ∃ t, exec (.init pv) s = .next t ∧
      t.cfg = true ∧ t.p.toNat = pv.toNat ∧
      (∀ j, t.reg.read j = if j < 2 ^ pv.toNat then 0#5 else s.reg.read j) ∧
      t.cmd = none ∧ t.rsp = some (encodeResponse .ok 0#33) ∧ t.pending = s.pending ∧ t.taken = s.taken) ∧
    (¬(4 ≤ pv.toNat ∧ pv.toNat ≤ 16) → ∃ d : Result, d.toNat = pv.toNat ∧
      exec (.init pv) s = .next { s with cmd := none, rsp := some (encodeResponse .invalidPrecision d) })

/-- For every operand and state, INIT responds OK 0 exactly if the operand is one of 4, 5, ..., 16; so 0, 3, 17,
0x80000004 and 0xFFFFFFFF are refused. [R101] -/
def Obligations.InitAcceptsExactlyThirteenOperands : Prop :=
  (∀ (pv : Operand) (s : State),
    (∃ t, exec (.init pv) s = .next t ∧ t.rsp = some (encodeResponse .ok 0#33)) ↔
      pv ∈ (List.range 13).map fun k => BitVec.ofNat 32 (k + 4)) ∧
  ((List.range 13).map fun k => BitVec.ofNat 32 (k + 4)).Nodup ∧
  (∀ pv ∈ [0#32, 3#32, 17#32, 0x80000004#32, 0xFFFFFFFF#32], ∀ s : State, ∃ t d,
    exec (.init pv) s = .next t ∧ t.rsp = some (encodeResponse .invalidPrecision d))

/-- For any two states and any valid precision, INIT leaves the same architectural state (that precision, all live
registers 0), and every sequence of commands that begins with it gets the same responses from both. [R104] -/
def Obligations.InitForgetsTheOldLifetime : Prop :=
  ∀ (pv : Operand) (ws : List CmdWord) (s s' : State), s.Inv → s'.Inv → 4 ≤ pv.toNat → pv.toNat ≤ 16 →
    replies (encode (.init pv) :: ws) s = replies (encode (.init pv) :: ws) s' ∧
    ∃ t, exec (.init pv) s = .next t ∧ t.arch = some (BitVec.ofNat 5 pv.toNat, [])

/-- ANUM and ADEN have the thirteen values of the table of R102, and ANUM / ADEN is exactly 0.673, 0.697, 0.709 at p =
4, 5, 6 and 0.7213 / (1 + 1.079 / 2^p) = 7213 m / (10000 m + 10790) at p = 7 to 16. [R102] -/
def Obligations.BiasConstantsAreTheSpecFractions : Prop :=
  ((List.range 13).map fun k => (alphaNum (k + 4), alphaDen (k + 4))) =
    [(673, 1000), (697, 1000), (709, 1000), (923264, 1290790), (1846528, 2570790), (3693056, 5130790),
      (7386112, 10250790), (14772224, 20490790), (29544448, 40970790), (59088896, 81930790),
      (118177792, 163850790), (236355584, 327690790), (472711168, 655370790)] ∧
  (∀ p : Nat, 4 ≤ p → p ≤ 16 → (alphaNum p : ℚ) / alphaDen p = alpha p ∧
    (7 ≤ p → alpha p = 7213 * 2 ^ p / (10000 * 2 ^ p + 10790)))

/-- For every hash and every precision 4 to 16: index = h mod 2^p = h & (2^p - 1) below 2^p, w = h div 2^p below
2^(32-p), and h = w 2^p + index; 0 splits into (0, 0) and 0xFFFFFFFF into (2^p - 1, 2^(32-p) - 1); 213 at p = 4 into
(5, 13). [R80; R81] -/
def Obligations.SplitIsExact : Prop :=
  (∀ (h : Operand) (p : Nat), 4 ≤ p → p ≤ 16 →
    (split h p).1.toNat = h.toNat &&& (2 ^ p - 1) ∧ (split h p).2.toNat = h.toNat >>> p ∧
    (split h p).1.toNat < 2 ^ p ∧ (split h p).2.toNat < 2 ^ (32 - p) ∧
    h.toNat = (split h p).2.toNat * 2 ^ p + (split h p).1.toNat ∧
    split 0#32 p = (0#16, 0#32) ∧
    (split 0xFFFFFFFF#32 p).1.toNat = 2 ^ p - 1 ∧ (split 0xFFFFFFFF#32 p).2.toNat = 2 ^ (32 - p) - 1) ∧
  split 213#32 4 = (5#16, 13#32)

/-- For every w not 0: bit TZ(w) of w is 1 and every lower bit is 0; TZ(w) is the greatest i with w mod 2^i = 0; and
TZ(w) is at most 31 - p if w has 32 - p bits. TZ(8) = 3, TZ(1) = 0, TZ(6) = 1. [R83] -/
def Obligations.TrailingZeroCountIsTheLowestSetBit : Prop :=
  (∀ w : Operand, w ≠ 0#32 →
    w.getLsbD (tz w) = true ∧ (∀ i, i < tz w → w.getLsbD i = false) ∧
    (∀ i, w.toNat % 2 ^ i = 0 ↔ i ≤ tz w) ∧
    (∀ p, 4 ≤ p → p ≤ 16 → w.toNat < 2 ^ (32 - p) → tz w ≤ 31 - p)) ∧
  tz 8#32 = 3 ∧ tz 1#32 = 0 ∧ tz 6#32 = 1

/-- For every precision 4 to 16 and remainder of 32 - p bits: if w is not 0, RANK(w, p) = TZ(w) + 1 lies in 1 .. 32 -
p and does not depend on p, is 1 for odd w and 32 - p for w = 2^(31-p); RANK(0, p) = 33 - p. RANK of 8, 1, 6 is 4, 1,
2; RANK(0, p) is 29, 19, 17 at p = 4, 14, 16. [R84; R85] -/
def Obligations.RankOfNonZeroAndAllZeroRemainders : Prop :=
  (∀ p : Nat, 4 ≤ p → p ≤ 16 →
    (∀ w : Operand, w ≠ 0#32 → w.toNat < 2 ^ (32 - p) →
      rank w p = tz w + 1 ∧ 1 ≤ rank w p ∧ rank w p ≤ 32 - p ∧ (∀ q, rank w q = rank w p) ∧
      (w.toNat % 2 = 1 → rank w p = 1) ∧ (w.toNat = 2 ^ (31 - p) → rank w p = 32 - p)) ∧
    rank 0#32 p = 33 - p ∧ rank 8#32 p = 4 ∧ rank 1#32 p = 1 ∧ rank 6#32 p = 2) ∧
  rank 0#32 4 = 29 ∧ rank 0#32 14 = 19 ∧ rank 0#32 16 = 17

/-- For every precision 4 to 16, RANK is TZ + 1 for a non-zero remainder and 33 - p for 0, and lies in 1 .. 33 - p <=
29 on every remainder of 32 - p bits; of the 2^(32-p) remainders exactly 2^(32-p-r) have rank r, for 1 <= r <= 32 - p,
and exactly one has rank 33 - p. The counts are R86, whose law of ranks the spec marks as derived (counting
remainders). [40_split_rank.md R86] -/
def Obligations.RanksFollowTheGeometricLaw : Prop :=
  ∀ p : Nat, 4 ≤ p → p ≤ 16 →
    (∀ w : Operand, w.toNat < 2 ^ (32 - p) →
      rank w p = (if w ≠ 0#32 then tz w + 1 else 33 - p) ∧ 1 ≤ rank w p ∧ rank w p ≤ 33 - p ∧ 33 - p ≤ 29) ∧
    (∀ r : Nat, 1 ≤ r → r ≤ 32 - p →
      ((Finset.range (2 ^ (32 - p))).filter fun n => rank (BitVec.ofNat 32 n) p = r).card = 2 ^ (32 - p - r)) ∧
    ((Finset.range (2 ^ (32 - p))).filter fun n => rank (BitVec.ofNat 32 n) p = 33 - p).card = 1

/-- For every hash and state: with CFG = 1, ADD answers a next state with response OK 0 in which the entry at SPLIT's
index reads the maximum of its old value and the rank of the remainder, every other entry reads as before, and CFG, P
and the host side are unchanged; with CFG = 0 it answers NOT_CONFIGURED 0 and changes nothing else. [R110] -/
def Obligations.AddRaisesOneRegisterToTheRank : Prop :=
  ∀ (h : Operand) (s : State), s.Inv →
    (s.cfg = true → ∃ m : Memory,
      exec (.add h) s = .next { s with reg := m, cmd := none, rsp := some (encodeResponse .ok 0#33) } ∧
      ∀ j, (m.read j).toNat =
        if j = (split h s.p.toNat).1.toNat then
          max (s.reg.read j).toNat (rank (split h s.p.toNat).2 s.p.toNat)
        else (s.reg.read j).toNat) ∧
    (s.cfg = false →
      exec (.add h) s = .next { s with cmd := none, rsp := some (encodeResponse .notConfigured 0#33) })

/-- For every hash and configured state that meets the invariant: the index lies below 2^P; after ADD the entry there
holds a value in 1 .. 33 - P not less than before; no other entry, CFG or P changes. [43_add.md R114 (marked derived
by the spec); 20_memory.md R44; 41_register_bank.md R94 R95] -/
def Obligations.AddStaysInsideItsBounds : Prop :=
  ∀ (h : Operand) (s t : State), s.Inv → s.cfg = true → exec (.add h) s = .next t →
    (splitIndex h s.p.toNat).toNat < 2 ^ s.p.toNat ∧
    1 ≤ (t.reg.read (splitIndex h s.p.toNat).toNat).toNat ∧
    (t.reg.read (splitIndex h s.p.toNat).toNat).toNat ≤ 33 - s.p.toNat ∧
    (s.reg.read (splitIndex h s.p.toNat).toNat).toNat ≤ (t.reg.read (splitIndex h s.p.toNat).toNat).toNat ∧
    (∀ j, j ≠ (splitIndex h s.p.toNat).toNat → t.reg.read j = s.reg.read j) ∧ t.cfg = s.cfg ∧ t.p = s.p

/-- For every bank in canonical form, indexes in the bank and ranks that fit an entry: no entry is lower after
UPDATE(j, r) and every entry but j is as before; UPDATE twice is UPDATE once; two UPDATEs give the same bank in either
order. [41_register_bank.md R90 R91 (marked derived by the spec)] -/
def Obligations.UpdateIsMonotoneIdempotentCommutative : Prop :=
  ∀ (m : Memory) (j₁ j₂ : Index) (r₁ r₂ : Nat), m.wf = true → r₁ < 32 → r₂ < 32 →
    (∀ k, (m.read k).toNat ≤ ((m.update j₁.toNat r₁).read k).toNat) ∧
    (∀ k, k ≠ j₁.toNat → (m.update j₁.toNat r₁).read k = m.read k) ∧
    (m.update j₁.toNat r₁).update j₁.toNat r₁ = m.update j₁.toNat r₁ ∧
    (m.update j₁.toNat r₁).update j₂.toNat r₂ = (m.update j₂.toNat r₂).update j₁.toNat r₁

/-- In a configured state: ADD changes no state whenever the rank is at most the entry. After ADD h and then any
commands of which none starts a new lifetime, ADD h again changes CFG, P and REG in nothing and responds OK 0, and the
estimate after it is the estimate before it. [R111] -/
def Obligations.AddIsIdempotentInALifetime : Prop :=
  (∀ (h : Operand) (s : State), s.Inv → s.cfg = true →
    rank (splitRemainder h s.p.toNat) s.p.toNat ≤ (s.reg.read (splitIndex h s.p.toNat).toNat).toNat →
    exec (.add h) s = .next { s with cmd := none, rsp := some (encodeResponse .ok 0#33) }) ∧
  (∀ (h : Operand) (ws : List CmdWord) (s u : State), s.Inv → s.cfg = true →
    (∀ w ∈ ws, startsLifetime w = false) → u = serve (encode (.add h) :: ws) s →
    ∃ v, exec (.add h) u = .next v ∧ v.rsp = some (encodeResponse .ok 0#33) ∧
      v.cfg = u.cfg ∧ v.p = u.p ∧ v.reg = u.reg ∧ v.reg.estimate v.p.toNat = u.reg.estimate u.p.toNat)

/-- From a configured state that meets the invariant, two lists of ADD commands with the same set of hashes, in any
order and with any repetitions, end in banks that are equal. [43_add.md R112 (marked derived by the spec)] -/
def Obligations.AddsDependOnlyOnTheSetOfHashes : Prop :=
  ∀ (hs hs' : List Operand) (s : State), s.Inv → s.cfg = true → (∀ h, h ∈ hs ↔ h ∈ hs') →
    (serve (hs.map fun h => encode (.add h)) s).reg = (serve (hs'.map fun h => encode (.add h)) s).reg

/-- After a valid INIT and then any commands of which none starts a new lifetime, each live register holds the maximum
of the ranks of the added hashes whose index it is; it is 0 exactly if there is no such hash. [R24] -/
def Obligations.RegisterIsTheGreatestRankOfItsLifetime : Prop :=
  ∀ (pv : Operand) (ws : List CmdWord) (s u : State) (j : Nat), s.Inv → 4 ≤ pv.toNat → pv.toNat ≤ 16 →
    (∀ w ∈ ws, startsLifetime w = false) → u = serve (encode (.init pv) :: ws) s → j < 2 ^ pv.toNat →
    u.cfg = true ∧ u.p.toNat = pv.toNat ∧
    (u.reg.read j).toNat = (((addedHashes ws).filter fun h => (splitIndex h pv.toNat).toNat = j).map
      fun h => rank (splitRemainder h pv.toNat) pv.toNat).foldr max 0 ∧
    (u.reg.read j = 0#5 ↔ ∀ h ∈ addedHashes ws, (splitIndex h pv.toNat).toNat ≠ j)

/-- For every bank in canonical form and every precision up to 16, the zero count (computed from the listed entries,
log entry 6) is the number of j below 2^p with REG[j] = 0, is at most 2^p, and fits 17 bits. [41_register_bank.md R92;
notes/assumptions/6.md] -/
def Obligations.ZeroCountCountsTheZeroRegisters : Prop :=
  ∀ (m : Memory) (p : Nat), m.wf = true → p ≤ 16 →
    m.countZero p = m.specZeros p ∧ m.countZero p ≤ 2 ^ p ∧ m.countZero p < 2 ^ Config.vW

/-- For every bank in canonical form whose live registers hold at most 29, and every precision up to 16: Sint is the
integer sum over j below 2^p of 2^(29 - REG[j]), a register equal to 0 adding 2^29, and equals 2^29 times the rational
sum of 2^-REG[j]. [R121; R135] -/
def Obligations.HarmonicSumIsTheSumOverLiveRegisters : Prop :=
  ∀ (m : Memory) (p : Nat), m.wf = true → p ≤ 16 → (∀ j, j < 2 ^ p → (m.read j).toNat ≤ 29) →
    m.harmonicSum p = ∑ j ∈ Finset.range (2 ^ p), 2 ^ (29 - (m.read j).toNat) ∧
    (m.harmonicSum p : ℚ) = 2 ^ 29 * m.specSum p ∧
    (∀ j, j < 2 ^ p → m.read j = 0#5 → (1 / 2 : ℚ) ^ (m.read j).toNat = 1 ∧ 2 ^ (29 - (m.read j).toNat) = 2 ^ 29)

/-- In every configured state that meets the invariant, 2^(2P-4) <= Sint <= 2^(P+29) <= 2^45, so the 46-bit
accumulator never overflows and the division of EST is never by zero. [44_estimate.md R122 (marked derived by the
spec)] -/
def Obligations.HarmonicSumFitsItsAccumulator : Prop :=
  ∀ s : State, s.Inv → s.cfg = true →
    2 ^ (2 * s.p.toNat - 4) ≤ s.reg.harmonicSum s.p.toNat ∧
    s.reg.harmonicSum s.p.toNat ≤ 2 ^ (s.p.toNat + 29) ∧
    2 ^ (s.p.toNat + 29) ≤ 2 ^ 45 ∧ s.reg.harmonicSum s.p.toNat < 2 ^ Config.accW ∧
    0 < alphaDen s.p.toNat * s.reg.harmonicSum s.p.toNat

/-- In every configured state that meets the invariant, small holds exactly if E <= 2.5 m, exactly if S >= alpha m /
2.5, with E = alpha m^2 / S over the rationals; and 5 ADEN Sint is below 2^78. [R124] -/
def Obligations.SmallRangeTestIsExact : Prop :=
  ∀ s : State, s.Inv → s.cfg = true →
    (small s.p.toNat (s.reg.harmonicSum s.p.toNat) = true ↔ s.reg.specRaw s.p.toNat ≤ 2.5 * 2 ^ s.p.toNat) ∧
    (small s.p.toNat (s.reg.harmonicSum s.p.toNat) = true ↔
      alpha s.p.toNat * 2 ^ s.p.toNat / 2.5 ≤ s.reg.specSum s.p.toNat) ∧
    (small s.p.toNat (s.reg.harmonicSum s.p.toNat) = true ↔
      2 * alphaNum s.p.toNat * 2 ^ s.p.toNat * 2 ^ 29 ≤ 5 * alphaDen s.p.toNat * s.reg.harmonicSum s.p.toNat) ∧
    5 * alphaDen s.p.toNat * s.reg.harmonicSum s.p.toNat < 2 ^ 78

/-- In every configured state that meets the invariant, the integer quotient of EST is floor(E) with E = alpha m^2 / S
over the rationals; E is at least alpha m, and the dividend is below 2^90. [44_estimate.md R123 R128] -/
def Obligations.RawEstimateIsTheFloorOfE : Prop :=
  ∀ s : State, s.Inv → s.cfg = true →
    (rawEstimate s.p.toNat (s.reg.harmonicSum s.p.toNat) : ℤ) = ⌊s.reg.specRaw s.p.toNat⌋ ∧
    alpha s.p.toNat * 2 ^ s.p.toNat ≤ s.reg.specRaw s.p.toNat ∧
    alphaNum s.p.toNat * (2 ^ s.p.toNat) ^ 2 * 2 ^ 29 < 2 ^ 90

/-- For two banks in canonical form whose live registers hold at most 29, if every live register of the first is at
most that of the second, then the harmonic sum of the second is at most that of the first, and E, the exact alpha m^2
/ S over the rationals, and its integer part are at least those of the first. [44_estimate.md R123; 95_test_vectors.md
S7] -/
def Obligations.RawEstimateGrowsWithTheRegisters : Prop :=
  ∀ (m m' : Memory) (p : Nat), m.wf = true → m'.wf = true → 4 ≤ p → p ≤ 16 →
    (∀ j, j < 2 ^ p → (m.read j).toNat ≤ (m'.read j).toNat ∧ (m'.read j).toNat ≤ 29) →
    m'.harmonicSum p ≤ m.harmonicSum p ∧ m.specRaw p ≤ m'.specRaw p ∧
    rawEstimate p (m.harmonicSum p) ≤ rawEstimate p (m'.harmonicSum p)

/-- For every precision 4 to 16 and 1 <= V <= m = 2^p, the scaled value behind LC is at most the real m ln(m / V) and
less than 3.7e-6 below it: the accuracy that D10 and R127 (e) ask of an evaluation (the method is the model's choice,
log entry 7). [44_estimate.md R126 R127; 92_eei_decisions.md D10; notes/assumptions/7.md] -/
def Obligations.LogarithmErrorIsBelowTheMargin : Prop :=
  ∀ p v : Nat, 4 ≤ p → p ≤ 16 → 1 ≤ v → v ≤ 2 ^ p →
    (2 ^ p * lnRatio p v : ℝ) / 2 ^ lnFrac ≤ 2 ^ p * Real.log (2 ^ p / v) ∧
    2 ^ p * Real.log (2 ^ p / v) - (2 ^ p * lnRatio p v : ℝ) / 2 ^ lnFrac < 3.7e-6

/-- For every precision 4 to 16 and 1 <= V <= m = 2^p, the linear-counting value the model computes is the floor of
the real number m ln(m / V), the unique n with exp(n / m) <= m / V < exp((n + 1) / m). [R126] -/
def Obligations.LinearCountIsTheFloorOfTheRealLogarithm : Prop :=
  ∀ p v : Nat, 4 ≤ p → p ≤ 16 → 1 ≤ v → v ≤ 2 ^ p →
    (linearCount p v : ℤ) = ⌊(2 : ℝ) ^ p * Real.log (2 ^ p / v)⌋ ∧
    (∀ n : ℕ, (Real.exp (n / 2 ^ p) ≤ (2 : ℝ) ^ p / v ∧ (2 : ℝ) ^ p / v < Real.exp ((n + 1) / 2 ^ p)) ↔
      n = linearCount p v)

/-- The values of LC(4, 1..16) and LC(5, 1..32) are those of R127, the sums over V at p = 4 to 8 are 213, 925, 3875,
15892, 64467, LC(p, m - 1) = 1 and LC(p, m) = 0 at p = 4 to 16, and LC(16, 1) = 726817. [44_estimate.md R127] -/
def Obligations.LinearCountTablesOfTheSpec : Prop :=
  ((List.range 16).map fun k => linearCount 4 (k + 1)) = [44, 33, 26, 22, 18, 15, 13, 11, 9, 7, 5, 4, 3, 2, 1, 0] ∧
  ((List.range 32).map fun k => linearCount 5 (k + 1)) =
    [110, 88, 75, 66, 59, 53, 48, 44, 40, 37, 34, 31, 28, 26, 24, 22,
      20, 18, 16, 15, 13, 11, 10, 9, 7, 6, 5, 4, 3, 2, 1, 0] ∧
  ((List.range 5).map fun k => ((List.range (2 ^ (k + 4))).map fun i => linearCount (k + 4) (i + 1)).sum) =
    [213, 925, 3875, 15892, 64467] ∧
  (∀ p ∈ (List.range 13).map (· + 4), linearCount p (2 ^ p - 1) = 1 ∧ linearCount p (2 ^ p) = 0) ∧
  linearCount 16 1 = 726817

/-- For every operand and state: with CFG = 1, EST answers a next state that differs only in holding the response OK
with the estimate, the same for every operand; with CFG = 0, EST and ADD answer NOT_CONFIGURED 0 and change nothing
else; from a configured state no sequence of commands gets NOT_CONFIGURED again. [R68; R130; R142] -/
def Obligations.EstAnswersAndWritesNothing : Prop :=
  ∀ (x y h : Operand) (s : State),
    (s.cfg = true → exec (.est x) s =
      .next { s with cmd := none, rsp := some (encodeResponse .ok (BitVec.ofNat 33 (s.reg.estimate s.p.toNat))) }) ∧
    exec (.est x) s = exec (.est y) s ∧
    (s.cfg = false →
      exec (.est x) s = .next { s with cmd := none, rsp := some (encodeResponse .notConfigured 0#33) } ∧
      exec (.add h) s = .next { s with cmd := none, rsp := some (encodeResponse .notConfigured 0#33) }) ∧
    (s.cfg = true → ∀ ws : List CmdWord, ∀ r ∈ replies ws s, statusOfCode (rspStatus r) ≠ .notConfigured)

/-- For every configured state that meets the invariant, EST answers a next state that differs only in the response OK
with a result n: if E <= 2.5 m and V is not 0 then n = floor(m ln(m / V)), real logarithm; if E <= 2.5 m and V = 0, or
E > 2.5 m, then n = floor(E), E = alpha m^2 / S over the live registers; unconfigured it answers NOT_CONFIGURED 0.
[R120; R125] -/
def Obligations.EstimateFollowsTheSpecFormula : Prop :=
  ∀ (x : Operand) (s : State), s.Inv →
    (s.cfg = true → ∃ n : Result,
      exec (.est x) s = .next { s with cmd := none, rsp := some (encodeResponse .ok n) } ∧
      (s.reg.specRaw s.p.toNat ≤ 2.5 * 2 ^ s.p.toNat → s.reg.specZeros s.p.toNat ≠ 0 →
        (n.toNat : ℤ) = ⌊(2 : ℝ) ^ s.p.toNat * Real.log (2 ^ s.p.toNat / s.reg.specZeros s.p.toNat)⌋) ∧
      (s.reg.specRaw s.p.toNat ≤ 2.5 * 2 ^ s.p.toNat → s.reg.specZeros s.p.toNat = 0 →
        (n.toNat : ℤ) = ⌊s.reg.specRaw s.p.toNat⌋) ∧
      (2.5 * 2 ^ s.p.toNat < s.reg.specRaw s.p.toNat → (n.toNat : ℤ) = ⌊s.reg.specRaw s.p.toNat⌋)) ∧
    (s.cfg = false →
      exec (.est x) s = .next { s with cmd := none, rsp := some (encodeResponse .notConfigured 0#33) })

/-- In every configured state that meets the invariant the estimate is at most floor(alpha(P) 2^33), which is at most
6195817811 < 2^33, so the 33-bit result never truncates; it is floor(alpha(P) 2^33) exactly if every live register
holds 33 - P, and 0 exactly if small holds and V = m. [44_estimate.md R129 (marked derived by the spec)] -/
def Obligations.EstimateFitsThirtyThreeBits : Prop :=
  ∀ s : State, s.Inv → s.cfg = true →
    (s.reg.estimate s.p.toNat : ℤ) ≤ ⌊alpha s.p.toNat * 2 ^ 33⌋ ∧ ⌊alpha s.p.toNat * 2 ^ 33⌋ ≤ 6195817811 ∧
    s.reg.estimate s.p.toNat < 2 ^ Config.estW ∧
    (s.reg.estimate s.p.toNat = 0 ↔
      small s.p.toNat (s.reg.harmonicSum s.p.toNat) = true ∧ s.reg.countZero s.p.toNat = 2 ^ s.p.toNat) ∧
    ((s.reg.estimate s.p.toNat : ℤ) = ⌊alpha s.p.toNat * 2 ^ 33⌋ ↔
      ∀ j, j < 2 ^ s.p.toNat → (s.reg.read j).toNat = 33 - s.p.toNat)

/-- From every state that meets the invariant and for every valid precision, INIT followed by EST gets the responses
OK 0 and OK 0; there S = m, V = m and LC(p, m) = 0. [R131] -/
def Obligations.EmptyEstimatorEstimatesZero : Prop :=
  ∀ (pv x : Operand) (s t : State), s.Inv → 4 ≤ pv.toNat → pv.toNat ≤ 16 →
    replies [encode (.init pv), encode (.est x)] s = [encodeResponse .ok 0#33, encodeResponse .ok 0#33] ∧
    (exec (.init pv) s = .next t →
      t.reg.specSum pv.toNat = 2 ^ pv.toNat ∧ t.reg.specRaw pv.toNat = alpha pv.toNat * 2 ^ pv.toNat ∧
      t.reg.specRaw pv.toNat ≤ 2.5 * 2 ^ pv.toNat ∧ t.reg.specZeros pv.toNat = 2 ^ pv.toNat) ∧
    linearCount pv.toNat (2 ^ pv.toNat) = 0

/-- For two banks in canonical form and a precision 4 to 16, if every value is held by equally many live registers of
both, their estimates are equal. R133 is marked derived by the spec (from R121, R92 and R125). [44_estimate.md R133]
-/
def Obligations.EstimateDependsOnlyOnTheHistogram : Prop :=
  ∀ (m m' : Memory) (p : Nat), m.wf = true → m'.wf = true → 4 ≤ p → p ≤ 16 →
    (∀ v : Entry, ((Finset.range (2 ^ p)).filter fun j => m.read j = v).card =
      ((Finset.range (2 ^ p)).filter fun j => m'.read j = v).card) →
    m.estimate p = m'.estimate p

/-- For every command word with opcode 11 and every state, the decoded command answers a next state that differs only
in holding the response ILLEGAL_COMMAND 0. [R69; R143] -/
def Obligations.ReservedOpcodeIsAlwaysIllegal : Prop :=
  (∀ (d : Operand) (s : State),
    exec (.rsvd d) s = .next { s with cmd := none, rsp := some (encodeResponse .illegalCommand 0#33) }) ∧
  (∀ (w : CmdWord) (s : State), 3 * 2 ^ 32 ≤ w.toNat →
    exec (decode w) s = .next { s with cmd := none, rsp := some (encodeResponse .illegalCommand 0#33) })

/-- For every command and state the response has status INVALID_PRECISION exactly for INIT with an operand below 4 or
above 16, and then carries the operand; NOT_CONFIGURED exactly for ADD and EST with CFG = 0, data 0; ILLEGAL_COMMAND
exactly for the reserved opcode, data 0; and OK otherwise. [R140] -/
def Obligations.ErrorOutcomesAreExactlyTheListed : Prop :=
  ∀ (i : Instr) (s : State), ∃ (t : State) (st : Status) (d : Result),
    exec i s = .next t ∧ t.rsp = some (encodeResponse st d) ∧
    (st = .invalidPrecision ↔ ∃ pv, i = .init pv ∧ (pv.toNat < 4 ∨ 16 < pv.toNat)) ∧
    (∀ pv, i = .init pv → st = .invalidPrecision → d.toNat = pv.toNat) ∧
    (st = .notConfigured ↔ s.cfg = false ∧ ((∃ h, i = .add h) ∨ ∃ x, i = .est x)) ∧
    (st = .illegalCommand ↔ ∃ x, i = .rsvd x) ∧
    (st = .notConfigured ∨ st = .illegalCommand → d = 0#33)

/-- From every state that meets the invariant (the bank in canonical form; while CFG = 1, 4 <= P <= 16 and every live
register at most 33 - P), every step ends in a state that meets it. (The canonical form is log entry 4.) [10_state.md
R21 R25; 41_register_bank.md R94 R95 (marked derived by the spec); notes/assumptions/1.md; notes/assumptions/4.md] -/
def Obligations.StepKeepsTheInvariant : Prop :=
  ∀ s t : State, s.Inv → step s = .next t → t.Inv

/-- State.reset meets the invariant. [10_state.md R32; 70_reset_and_hazards.md R170] -/
def Obligations.InvariantHoldsAfterReset : Prop :=
  State.reset.Inv

/-- In every state that meets the invariant and has CFG = 1, P lies in 4..16 and every live register reads at most 33
- P; and from every state, a step leaves P as it was unless it carried out a valid INIT (answered, or carried out and
then abandoned by a reset). (The bound on the registers is R25 (a) and R94. That a command abandoned by a reset leaves
P as it was or as the whole command leaves it is log entry 9, where R171 allows any part of it; what a step carries
out is log entries 1 and 18.) [10_state.md R21 R25; 41_register_bank.md R94; 70_reset_and_hazards.md R171;
notes/assumptions/1.md; notes/assumptions/9.md; notes/assumptions/18.md] -/
def Obligations.OnlyAValidInitWritesThePrecision : Prop :=
  (∀ s : State, s.Inv → s.cfg = true →
    4 ≤ s.p.toNat ∧ s.p.toNat ≤ 16 ∧ ∀ j, j < 2 ^ s.p.toNat → (s.reg.read j).toNat ≤ 33 - s.p.toNat) ∧
  (∀ s t : State, step s = .next t → t.p = s.p ∨ ∃ w, startsLifetime w = true ∧
    (s.nextAction = some (.command w) ∨ s.nextAction = some (.abandoned w true)))

/-- For every state that meets the invariant and every step whose action does not end the lifetime (no valid INIT, no
reset), every entry of the bank is at least what it was, and CFG and P are unchanged. (What a step carries out is log
entries 1 and 18.) [10_state.md R20 R21 R25; 70_reset_and_hazards.md R179; 95_test_vectors.md S7;
notes/assumptions/1.md; notes/assumptions/18.md] -/
def Obligations.RegistersNeverDecreaseInALifetime : Prop :=
  ∀ s t : State, s.Inv → step s = .next t → (∀ a, s.nextAction = some a → a.endsLifetime = false) →
    t.cfg = s.cfg ∧ t.p = s.p ∧ ∀ j, (s.reg.read j).toNat ≤ (t.reg.read j).toNat

/-- For every step: if CFG goes from 0 to 1, what it carried out was a valid INIT; if CFG goes from 1 to 0, it was a
reset, or a command abandoned by a reset. (What a step carries out is log entries 1 and 18.) [10_state.md R20;
70_reset_and_hazards.md R170; 60_exceptions.md R155; notes/assumptions/1.md; notes/assumptions/18.md] -/
def Obligations.OnlyInitSetsAndOnlyResetClearsCfg : Prop :=
  ∀ s t : State, step s = .next t →
    (s.cfg = false → t.cfg = true → ∃ w, s.nextAction = some (.command w) ∧ startsLifetime w = true) ∧
    (s.cfg = true → t.cfg = false →
      s.nextAction = some .reset ∨ ∃ w ran, s.nextAction = some (.abandoned w ran))

/-- A step whose action is a reset of a ready block sets CFG to 0, leaves P and REG and the delivered responses as
they were, and leaves no command or response in the block; its architectural state is none. State.reset has CFG = 0
and holds no command and no response (its P and REG are the choice of log entry 2, and nothing is said of them here).
[70_reset_and_hazards.md R170; 10_state.md R32; notes/assumptions/1.md; notes/assumptions/2.md] -/
def Obligations.ResetClearsCfgAndNothingElse : Prop :=
  (∀ (s : State) (rest : List HostAction), s.cmd = none → s.rsp = none → s.pending = .reset :: rest →
    step s = .next { s with cfg := false, pending := rest } ∧ ∀ t, step s = .next t → t.arch = none) ∧
  State.reset.cfg = false ∧ State.reset.arch = none ∧ State.reset.cmd = none ∧ State.reset.rsp = none

/-- For every command word and every state of a ready block, whether the command had been carried out or not: a step
in which it is abandoned by a reset delivers no response and ends with CFG = 0, nothing in the block, architectural
state none, as a reset alone does; whatever commands follow get the responses they get after a reset. (R171 says:
whatever part of the command had been done; that the model has only the whole of it or nothing is log entry 9, and
that this is one step is log entry 1.) [70_reset_and_hazards.md R171; notes/assumptions/1.md; notes/assumptions/9.md]
-/
def Obligations.AbandonedCommandIsNeverAnswered : Prop :=
  ∀ (s : State) (w : CmdWord) (ran : Bool) (rest : List HostAction), s.Inv → s.cmd = none → s.rsp = none →
    s.pending = .abandoned w ran :: rest →
    ∃ t, step s = .next t ∧ t.taken = s.taken ∧ t.pending = rest ∧ t.cfg = false ∧ t.cmd = none ∧ t.rsp = none ∧
      t.arch = none ∧ ∀ ws, replies ws t = replies ws State.reset

/-- If two states meet the invariant, have the same architectural image (none, or the same precision and live
registers) and the same traffic at the ports, then after any number of steps both have delivered the same responses
and have the same image: P and REG after reset and the entries at or above 2^P are unobservable. (What a step carries
out is log entries 1 and 9.) [10_state.md R31 (marked derived by the spec) R32 R23; 93_implementation_defined.md U6
U7; notes/assumptions/1.md; notes/assumptions/9.md] -/
def Obligations.ArchitecturalStateDecidesEveryResponse : Prop :=
  ∀ (n : Nat) (s t : State), s.Inv → t.Inv → s.arch = t.arch → s.cmd = t.cmd → s.rsp = t.rsp →
    s.pending = t.pending → s.taken = t.taken →
    ∃ s' t', Sys2Proof.core.run n s = .next s' ∧ Sys2Proof.core.run n t = .next t' ∧
      s'.taken = t'.taken ∧ s'.arch = t'.arch

/-- The responses to ws1 followed by ws2 are the responses to ws1, one per command, followed by the responses to ws2
from the state that ws1 left; later commands change no earlier response. [20_memory.md R50 R46 (marked derived by the
spec); 70_reset_and_hazards.md R176] -/
def Obligations.RepliesComeInCommandOrder : Prop :=
  ∀ (ws₁ ws₂ : List CmdWord) (s : State),
    replies (ws₁ ++ ws₂) s = replies ws₁ s ++ replies ws₂ (serve ws₁ s) ∧ (replies ws₁ s).length = ws₁.length

/-- The relation Sim says: since the last reset the delivered responses (and the one held) are the responses of the
accepted commands in order, at most one accepted command is not carried out, and the architectural state is theirs. It
holds right after reset, and every clock edge, for all pins and whatever the free latencies are, keeps it together
with the invariant. (The records that Sim speaks of are log entry 12, the edges log entry 11.) [30_encoding.md R61
R62; 70_reset_and_hazards.md R170 R171 R181; notes/assumptions/8.md; notes/assumptions/11.md; notes/assumptions/12.md]
-/
def Obligations.PinsDeliverTheSequenceFunction : Prop :=
  (Clocked.reset.Sim ∧ Clocked.reset.st.Inv) ∧
  (∀ (c c' : Clocked) (pins : Pins), c.st.Inv → c.Sim → c.tick pins = .next c' → c'.st.Inv ∧ c'.Sim)

/-- At every edge that answers a next state: with rst = 1 the records of the lifetime of the port are emptied and both
outputs are 0; else a command word is accepted exactly if cmd_valid and cmd_ready are 1, and a response delivered
exactly if rsp_valid and rsp_ready are 1. While a command or response is in the block cmd_ready is 0; while a response
is held and not taken it stays the same. (That the records of accepted words and delivered responses exist, and that
an edge with rst = 1 empties them, is log entry 12.) [30_encoding.md R60 R61 R62; 70_reset_and_hazards.md R170;
notes/assumptions/12.md] -/
def Obligations.TransfersHappenOnlyOnValidAndReady : Prop :=
  ∀ (c c' : Clocked) (pins : Pins), c.tick pins = .next c' →
    (pins.rst = true → c'.accepted = [] ∧ c'.answered = [] ∧ c'.st.cfg = false ∧
      (c.outputs true).cmdReady = false ∧ (c.outputs true).rsp = none) ∧
    (pins.rst = false →
      c'.accepted = (if pins.cmdValid && (c.outputs false).cmdReady then c.accepted ++ [pins.word] else c.accepted) ∧
      c'.answered =
        (if pins.rspReady then c.answered ++ (c.outputs false).rsp.toList else c.answered) ∧
      (c.st.cmd ≠ none ∨ c.st.rsp ≠ none → (c.outputs false).cmdReady = false) ∧
      (∀ r, c.st.rsp = some r → pins.rspReady = false → (c'.outputs false).rsp = some r))

/-- If a command is in execution with n edges left, then after n + 1 edges without reset and without a new offer its
response is held at the pins; with rsp_ready = 1 at the next such edge it is delivered and the block is ready again.
(The edge numbers are log entry 11: the count of the edges left, the delivery at the next edge, and the block ready
right after it.) [70_reset_and_hazards.md R181; 30_encoding.md R62; notes/assumptions/8.md; notes/assumptions/11.md]
-/
def Obligations.EveryAcceptedCommandIsAnsweredInTime : Prop :=
  ∀ (c : Clocked) (w : CmdWord) (ps : List Pins) (last : Pins), c.st.cmd = some w → c.st.rsp = none →
    ps.length = c.wait + 1 → (∀ q ∈ ps, q.rst = false ∧ q.cmdValid = false) →
    last.rst = false → last.cmdValid = false → last.rspReady = true →
    ∃ c' c'' r, c.run ps = .next c' ∧ (c'.outputs false).rsp = some r ∧ c'.st.cmd = none ∧
      c'.tick last = .next c'' ∧ c''.answered = c.answered ++ [r] ∧ (c''.outputs false).cmdReady = true

/-- Every edge answers a next state or is refused with brokenHandshake, and is refused exactly if rst = 0 and the host
offers another word than the one it offered at the last edge and that was not accepted (what counts as broken is log
entry 10). [30_encoding.md R61; 93_implementation_defined.md U15; notes/assumptions/10.md] -/
def Obligations.EdgeIsRefusedOnlyForABrokenHandshake : Prop :=
  ∀ (c : Clocked) (pins : Pins),
    ((∃ c', c.tick pins = .next c') ∨ c.tick pins = .refused .brokenHandshake) ∧
    (c.tick pins = .refused .brokenHandshake ↔
      pins.rst = false ∧ ∃ w, c.offer = some w ∧ pins.cmdValid = true ∧ pins.word ≠ w)

/-- For every hash function on every type of values: the pseudo-command ADDV is the ADD of the hash, and after ADDV of
a value in a configured state, ADDV of any value with the same hash changes no register. [43_add.md R113;
30_encoding.md R72; notes/assumptions/13.md] -/
def Obligations.HashedValuesAddOnce : Prop :=
  ∀ (Value : Type) (hash : Value → Operand) (v v' : Value) (s t u : State), s.Inv → s.cfg = true → hash v = hash v' →
    exec (Instr.addv hash v) s = .next t → exec (Instr.addv hash v') t = .next u →
    Instr.addv hash v = .add (hash v) ∧ u.reg = t.reg

/-- If a ready block accepts a command word w, then after fewer edges than the latency of w in that state (without
reset and without a new offer) it holds w and no response, and after exactly that many it holds the response that exec
of w in that state answers, in the state exec answers. (The latency is a free value, log entry 8; that its edges are
counted from the edge after the acceptance is log entry 11.) [70_reset_and_hazards.md R181; 30_encoding.md R61 R62;
notes/assumptions/8.md; notes/assumptions/11.md] -/
def Obligations.ResponseIsHeldAfterExactlyTheLatency : Prop :=
  ∀ (c : Clocked) (pins : Pins) (ps : List Pins), c.st.cmd = none → c.st.rsp = none →
    pins.rst = false → pins.cmdValid = true → c.broken pins = false → (∀ q ∈ ps, q.rst = false ∧ q.cmdValid = false) →
    ps.length = latency (decode pins.word) c.count c.st →
    (∀ k, k < ps.length → ∃ c', c.run (pins :: ps.take k) = .next c' ∧ c'.st = c.st.accept pins.word ∧
      (c'.outputs false).rsp = none) ∧
    ∃ c' r, c.run (pins :: ps) = .next c' ∧ exec (decode pins.word) (c.st.accept pins.word) = .next c'.st ∧
      (c'.outputs false).rsp = some r
end

