-- ==== Sys2Proof/Laws/Bank.lean ====
section
/-! SUPPORT. The register bank: every operation keeps the canonical form, what a read finds after each, and that equal
reads are equal banks. -/

namespace Sys2Proof.Machine

/-! ### The canonical form -/

@[simp] theorem Memory.wfFrom_nil (lo : Nat) : Memory.wfFrom lo [] = true := rfl

@[simp] theorem Memory.wfFrom_cons {lo j : Nat} {v : Entry} {rest : Memory} :
    Memory.wfFrom lo ((j, v) :: rest) = true ↔
      lo ≤ j ∧ j < 65536 ∧ v ≠ Memory.unlisted ∧ Memory.wfFrom (j + 1) rest = true := by
  simp [Memory.wfFrom, and_assoc]

theorem Memory.wfFrom_anti {lo lo' : Nat} (h : lo' ≤ lo) {m : Memory} (hm : Memory.wfFrom lo m = true) :
    Memory.wfFrom lo' m = true := by
  cases m with
  | nil => rfl
  | cons c rest =>
    obtain ⟨j, v⟩ := c
    rw [Memory.wfFrom_cons] at hm ⊢
    exact ⟨by omega, hm.2⟩

theorem Memory.wfFrom_listed {lo j : Nat} {v : Entry} {rest : Memory} (hlo : lo ≤ j) (hj : j < 65536)
    (hr : Memory.wfFrom (j + 1) rest = true) : Memory.wfFrom lo (Memory.listed j v rest) = true := by
  unfold Memory.listed
  split
  · exact Memory.wfFrom_anti (by omega) hr
  · exact Memory.wfFrom_cons.2 ⟨hlo, hj, ‹_›, hr⟩

theorem Memory.wfFrom_write {m : Memory} {lo j : Nat} {v : Entry} (hm : Memory.wfFrom lo m = true) (hlo : lo ≤ j)
    (hj : j < 65536) : Memory.wfFrom lo (m.write j v) = true := by
  induction m generalizing lo with
  | nil => exact Memory.wfFrom_listed hlo hj rfl
  | cons c rest ih =>
    obtain ⟨k, x⟩ := c
    obtain ⟨h1, h2, h3, h4⟩ := Memory.wfFrom_cons.1 hm
    unfold Memory.write
    split
    · exact Memory.wfFrom_listed hlo hj (Memory.wfFrom_cons.2 ⟨by omega, h2, h3, h4⟩)
    · split
      · subst k; exact Memory.wfFrom_listed hlo hj h4
      · exact Memory.wfFrom_cons.2 ⟨h1, h2, h3, ih h4 (by omega)⟩

theorem Memory.wfFrom_filter {f : BankCell → Bool} {m : Memory} {lo : Nat} (hm : Memory.wfFrom lo m = true) :
    Memory.wfFrom lo (m.filter f) = true := by
  induction m generalizing lo with
  | nil => rfl
  | cons c rest ih =>
    obtain ⟨k, x⟩ := c
    obtain ⟨h1, h2, h3, h4⟩ := Memory.wfFrom_cons.1 hm
    rw [List.filter_cons]
    split
    · exact Memory.wfFrom_cons.2 ⟨h1, h2, h3, ih h4⟩
    · exact Memory.wfFrom_anti (by omega) (ih h4)

/-- `BankWrite` keeps the canonical form. -/
theorem Memory.wf_write {m : Memory} {j : Nat} {v : Entry} (hm : m.wf = true) (hj : j < 65536) :
    (m.write j v).wf = true :=
  Memory.wfFrom_write hm (Nat.zero_le _) hj

/-- `UPDATE` keeps the canonical form. -/
theorem Memory.wf_update {m : Memory} {j r : Nat} (hm : m.wf = true) (hj : j < 65536) : (m.update j r).wf = true :=
  Memory.wf_write hm hj

/-- `CLEAR` keeps the canonical form. -/
theorem Memory.wf_clear {m : Memory} {p : Nat} (hm : m.wf = true) : (m.clear p).wf = true :=
  Memory.wfFrom_filter hm

/-- The live part is in canonical form. -/
theorem Memory.wf_live {m : Memory} {p : Nat} (hm : m.wf = true) : Memory.wf (m.live p) = true :=
  Memory.wfFrom_filter hm

/-- The bank after reset is in canonical form. -/
theorem Memory.wf_reset : State.reset.reg.wf = true := rfl

/-! ### Reads -/

@[simp] theorem Memory.read_nil (j : Nat) : Memory.read [] j = Memory.unlisted := rfl

theorem Memory.read_cons (k : Nat) (v : Entry) (rest : Memory) (j : Nat) :
    Memory.read ((k, v) :: rest) j = if k = j then v else Memory.read rest j := rfl

theorem Memory.read_of_lt {m : Memory} {lo j : Nat} (hm : Memory.wfFrom lo m = true) (hj : j < lo) :
    m.read j = Memory.unlisted := by
  induction m generalizing lo with
  | nil => rfl
  | cons c rest ih =>
    obtain ⟨k, x⟩ := c
    obtain ⟨h1, _, _, h4⟩ := Memory.wfFrom_cons.1 hm
    rw [Memory.read_cons, if_neg (by omega)]
    exact ih h4 (by omega)

theorem Memory.read_listed {j : Nat} {v : Entry} {rest : Memory} (hr : Memory.wfFrom (j + 1) rest = true) (k : Nat) :
    Memory.read (Memory.listed j v rest) k = if k = j then v else Memory.read rest k := by
  unfold Memory.listed
  split
  · subst v
    split
    · subst k; exact Memory.read_of_lt hr (by omega)
    · rfl
  · simp only [Memory.read_cons, eq_comm]

theorem Memory.read_write_from {m : Memory} {lo : Nat} (hm : Memory.wfFrom lo m = true) (j : Nat) (v : Entry) (k : Nat) :
    (m.write j v).read k = if k = j then v else m.read k := by
  induction m generalizing lo with
  | nil => exact Memory.read_listed (v := v) (j := j) rfl k
  | cons c rest ih =>
    obtain ⟨i, x⟩ := c
    obtain ⟨h1, h2, h3, h4⟩ := Memory.wfFrom_cons.1 hm
    unfold Memory.write
    split
    · exact Memory.read_listed (Memory.wfFrom_cons.2 ⟨by omega, h2, h3, h4⟩) k
    · split
      · subst i
        rw [Memory.read_listed h4, Memory.read_cons]
        split
        · rfl
        · rw [if_neg (by omega)]
      · rw [Memory.read_cons, ih h4, Memory.read_cons]
        split
        · rw [if_neg (by omega)]
        · rfl

/-- What a read finds after `BankWrite(j, v)`: `v` at `j`, and everything else as before (R45). -/
theorem Memory.read_write {m : Memory} (hm : m.wf = true) (j : Nat) (v : Entry) (k : Nat) :
    (m.write j v).read k = if k = j then v else m.read k :=
  Memory.read_write_from hm j v k

/-- What a read finds after `UPDATE(j, r)` (R90). -/
theorem Memory.read_update {m : Memory} (hm : m.wf = true) (j r k : Nat) :
    (m.update j r).read k = if k = j then BitVec.ofNat 5 (max (m.read j).toNat r) else m.read k :=
  Memory.read_write hm j _ k

theorem Memory.read_filter (f : Nat → Bool) (m : Memory) (k : Nat) :
    Memory.read (m.filter fun c => f c.1) k = if f k then m.read k else Memory.unlisted := by
  induction m with
  | nil => simp
  | cons c rest ih =>
    obtain ⟨i, x⟩ := c
    by_cases hf : f i = true
    · rw [List.filter_cons_of_pos (by simpa using hf), Memory.read_cons, ih, Memory.read_cons]
      by_cases hik : i = k
      · subst i; simp [hf]
      · simp [hik]
    · rw [List.filter_cons_of_neg (by simpa using hf), ih, Memory.read_cons]
      by_cases hik : i = k
      · subst i; simp [hf]
      · simp [hik]

/-- What a read finds after `CLEAR(p)`: 0 below `2^p`, and everything else as before (R93). -/
theorem Memory.read_clear (m : Memory) (p k : Nat) :
    (m.clear p).read k = if 2 ^ p ≤ k then m.read k else Memory.unlisted := by
  simpa [Memory.clear] using Memory.read_filter (fun j => decide (2 ^ p ≤ j)) m k

/-- What a read finds in the live part. -/
theorem Memory.read_live (m : Memory) (p k : Nat) :
    Memory.read (m.live p) k = if k < 2 ^ p then m.read k else Memory.unlisted := by
  simpa [Memory.live] using Memory.read_filter (fun j => decide (j < 2 ^ p)) m k

/-! ### Listed entries -/

theorem Memory.read_of_mem_from {m : Memory} {lo j : Nat} {v : Entry} (hm : Memory.wfFrom lo m = true) (h : (j, v) ∈ m) :
    m.read j = v ∧ lo ≤ j ∧ j < 65536 ∧ v ≠ Memory.unlisted := by
  induction m generalizing lo with
  | nil => simp at h
  | cons c rest ih =>
    obtain ⟨i, x⟩ := c
    obtain ⟨h1, h2, h3, h4⟩ := Memory.wfFrom_cons.1 hm
    rcases List.mem_cons.1 h with heq | h
    · cases heq; exact ⟨by simp [Memory.read_cons], h1, h2, h3⟩
    · obtain ⟨hr, hlo, hb, hv⟩ := ih h4 h
      rw [Memory.read_cons, if_neg (by omega)]
      exact ⟨hr, by omega, hb, hv⟩

/-- A listed entry is what a read finds, lies in the bank and is not 0. -/
theorem Memory.read_of_mem {m : Memory} {j : Nat} {v : Entry} (hm : m.wf = true) (h : (j, v) ∈ m) :
    m.read j = v ∧ j < 65536 ∧ v ≠ Memory.unlisted :=
  let ⟨h1, _, h3, h4⟩ := Memory.read_of_mem_from hm h
  ⟨h1, h3, h4⟩

/-- An entry that is not 0 is listed. -/
theorem Memory.mem_of_read {m : Memory} {j : Nat} (h : m.read j ≠ Memory.unlisted) : (j, m.read j) ∈ m := by
  induction m with
  | nil => exact absurd rfl h
  | cons c rest ih =>
    obtain ⟨i, x⟩ := c
    rw [Memory.read_cons] at h ⊢
    split
    · subst i; exact List.mem_cons_self
    · rw [if_neg ‹_›] at h; exact List.mem_cons_of_mem _ (ih h)

theorem Memory.ext_from {m m' : Memory} {lo : Nat} (hm : Memory.wfFrom lo m = true) (hm' : Memory.wfFrom lo m' = true)
    (h : ∀ k, m.read k = m'.read k) : m = m' := by
  induction m generalizing m' lo with
  | nil =>
    cases m' with
    | nil => rfl
    | cons c rest =>
      obtain ⟨i, x⟩ := c
      obtain ⟨_, _, h3, _⟩ := Memory.wfFrom_cons.1 hm'
      have := h i
      rw [Memory.read_cons, if_pos rfl] at this
      exact absurd this.symm h3
  | cons c rest ih =>
    obtain ⟨i, x⟩ := c
    obtain ⟨h1, h2, h3, h4⟩ := Memory.wfFrom_cons.1 hm
    cases m' with
    | nil =>
      have := h i
      rw [Memory.read_cons, if_pos rfl] at this
      exact absurd this h3
    | cons c' rest' =>
      obtain ⟨i', x'⟩ := c'
      obtain ⟨h1', h2', h3', h4'⟩ := Memory.wfFrom_cons.1 hm'
      have hi : i = i' := by
        rcases Nat.lt_trichotomy i i' with hlt | heq | hgt
        · have := h i
          rw [Memory.read_cons, if_pos rfl, Memory.read_cons, if_neg (by omega),
            Memory.read_of_lt h4' (by omega)] at this
          exact absurd this h3
        · exact heq
        · have := h i'
          rw [Memory.read_cons, if_neg (by omega), Memory.read_of_lt h4 (by omega), Memory.read_cons, if_pos rfl] at this
          exact absurd this.symm h3'
      subst hi
      have hx : x = x' := by simpa [Memory.read_cons] using h i
      subst hx
      have : rest = rest' := ih h4 h4' fun k => by
        by_cases hk : i = k
        · subst hk; rw [Memory.read_of_lt h4 (by omega), Memory.read_of_lt h4' (by omega)]
        · simpa [Memory.read_cons, hk] using h k
      rw [this]

/-- Equal reads are equal banks. -/
theorem Memory.ext_read {m m' : Memory} (hm : m.wf = true) (hm' : m'.wf = true) (h : ∀ k, m.read k = m'.read k) :
    m = m' :=
  Memory.ext_from hm hm' h

end Sys2Proof.Machine
end

