-- ==== Sys2Proof/Laws/State.lean ====
section
/-! SUPPORT. The state: one lemma per field per update, and the value after reset. -/

namespace Sys2Proof.Machine

variable (s : State)

/-! ### `respond` -/

@[simp] theorem State.respond_cfg (st : Status) (d : Result) : (s.respond st d).cfg = s.cfg := rfl

@[simp] theorem State.respond_p (st : Status) (d : Result) : (s.respond st d).p = s.p := rfl

@[simp] theorem State.respond_reg (st : Status) (d : Result) : (s.respond st d).reg = s.reg := rfl

@[simp] theorem State.respond_cmd (st : Status) (d : Result) : (s.respond st d).cmd = none := rfl

@[simp] theorem State.respond_rsp (st : Status) (d : Result) : (s.respond st d).rsp = some (encodeResponse st d) := rfl

@[simp] theorem State.respond_pending (st : Status) (d : Result) : (s.respond st d).pending = s.pending := rfl

@[simp] theorem State.respond_taken (st : Status) (d : Result) : (s.respond st d).taken = s.taken := rfl

/-! ### `raise` -/

@[simp] theorem State.raise_cfg (st : Status) (d : Result) : (s.raise st d).cfg = s.cfg := rfl

@[simp] theorem State.raise_p (st : Status) (d : Result) : (s.raise st d).p = s.p := rfl

@[simp] theorem State.raise_reg (st : Status) (d : Result) : (s.raise st d).reg = s.reg := rfl

@[simp] theorem State.raise_cmd (st : Status) (d : Result) : (s.raise st d).cmd = none := rfl

@[simp] theorem State.raise_rsp (st : Status) (d : Result) : (s.raise st d).rsp = some (encodeResponse st d) := rfl

@[simp] theorem State.raise_pending (st : Status) (d : Result) : (s.raise st d).pending = s.pending := rfl

@[simp] theorem State.raise_taken (st : Status) (d : Result) : (s.raise st d).taken = s.taken := rfl

/-! ### `configure` -/

@[simp] theorem State.configure_cfg (pv : Operand) : (s.configure pv).cfg = true := rfl

@[simp] theorem State.configure_p (pv : Operand) : (s.configure pv).p = pv.extractLsb' 0 5 := rfl

@[simp] theorem State.configure_reg (pv : Operand) : (s.configure pv).reg = s.reg.clear pv.toNat := rfl

@[simp] theorem State.configure_cmd (pv : Operand) : (s.configure pv).cmd = s.cmd := rfl

@[simp] theorem State.configure_rsp (pv : Operand) : (s.configure pv).rsp = s.rsp := rfl

@[simp] theorem State.configure_pending (pv : Operand) : (s.configure pv).pending = s.pending := rfl

@[simp] theorem State.configure_taken (pv : Operand) : (s.configure pv).taken = s.taken := rfl

/-! ### `update` -/

@[simp] theorem State.update_cfg (j : Index) (r : Nat) : (s.update j r).cfg = s.cfg := rfl

@[simp] theorem State.update_p (j : Index) (r : Nat) : (s.update j r).p = s.p := rfl

@[simp] theorem State.update_reg (j : Index) (r : Nat) : (s.update j r).reg = s.reg.update j.toNat r := rfl

@[simp] theorem State.update_cmd (j : Index) (r : Nat) : (s.update j r).cmd = s.cmd := rfl

@[simp] theorem State.update_rsp (j : Index) (r : Nat) : (s.update j r).rsp = s.rsp := rfl

@[simp] theorem State.update_pending (j : Index) (r : Nat) : (s.update j r).pending = s.pending := rfl

@[simp] theorem State.update_taken (j : Index) (r : Nat) : (s.update j r).taken = s.taken := rfl

/-! ### `accept` -/

@[simp] theorem State.accept_cfg (w : CmdWord) : (s.accept w).cfg = s.cfg := rfl

@[simp] theorem State.accept_p (w : CmdWord) : (s.accept w).p = s.p := rfl

@[simp] theorem State.accept_reg (w : CmdWord) : (s.accept w).reg = s.reg := rfl

@[simp] theorem State.accept_cmd (w : CmdWord) : (s.accept w).cmd = some w := rfl

@[simp] theorem State.accept_rsp (w : CmdWord) : (s.accept w).rsp = s.rsp := rfl

@[simp] theorem State.accept_pending (w : CmdWord) : (s.accept w).pending = s.pending := rfl

@[simp] theorem State.accept_taken (w : CmdWord) : (s.accept w).taken = s.taken := rfl

/-! ### `resetEdge` -/

@[simp] theorem State.resetEdge_cfg : (s.resetEdge).cfg = false := rfl

@[simp] theorem State.resetEdge_p : (s.resetEdge).p = s.p := rfl

@[simp] theorem State.resetEdge_reg : (s.resetEdge).reg = s.reg := rfl

@[simp] theorem State.resetEdge_cmd : (s.resetEdge).cmd = none := rfl

@[simp] theorem State.resetEdge_rsp : (s.resetEdge).rsp = none := rfl

@[simp] theorem State.resetEdge_pending : (s.resetEdge).pending = s.pending := rfl

@[simp] theorem State.resetEdge_taken : (s.resetEdge).taken = s.taken := rfl

/-! ### `withPending` -/

@[simp] theorem State.withPending_cfg (l : List HostAction) : (s.withPending l).cfg = s.cfg := rfl

@[simp] theorem State.withPending_p (l : List HostAction) : (s.withPending l).p = s.p := rfl

@[simp] theorem State.withPending_reg (l : List HostAction) : (s.withPending l).reg = s.reg := rfl

@[simp] theorem State.withPending_cmd (l : List HostAction) : (s.withPending l).cmd = s.cmd := rfl

@[simp] theorem State.withPending_rsp (l : List HostAction) : (s.withPending l).rsp = s.rsp := rfl

@[simp] theorem State.withPending_pending (l : List HostAction) : (s.withPending l).pending = l := rfl

@[simp] theorem State.withPending_taken (l : List HostAction) : (s.withPending l).taken = s.taken := rfl

/-! ### `withFetchWord` -/

@[simp] theorem State.withFetchWord_cfg (n w : Nat) : (s.withFetchWord n w).cfg = s.cfg := rfl

@[simp] theorem State.withFetchWord_p (n w : Nat) : (s.withFetchWord n w).p = s.p := rfl

@[simp] theorem State.withFetchWord_reg (n w : Nat) : (s.withFetchWord n w).reg = s.reg := rfl

@[simp] theorem State.withFetchWord_cmd (n w : Nat) : (s.withFetchWord n w).cmd = none := rfl

@[simp] theorem State.withFetchWord_rsp (n w : Nat) : (s.withFetchWord n w).rsp = none := rfl

@[simp] theorem State.withFetchWord_pending (n w : Nat) : (s.withFetchWord n w).pending = .command (BitVec.ofNat 34 (w % 2 ^ n)) :: s.pending := rfl

@[simp] theorem State.withFetchWord_taken (n w : Nat) : (s.withFetchWord n w).taken = s.taken := rfl

/-! ### `deliver` -/

@[simp] theorem State.deliver_cfg : s.deliver.cfg = s.cfg := by
  unfold State.deliver; split <;> rfl

@[simp] theorem State.deliver_p : s.deliver.p = s.p := by
  unfold State.deliver; split <;> rfl

@[simp] theorem State.deliver_reg : s.deliver.reg = s.reg := by
  unfold State.deliver; split <;> rfl

@[simp] theorem State.deliver_cmd : s.deliver.cmd = s.cmd := by
  unfold State.deliver; split <;> rfl

@[simp] theorem State.deliver_rsp : s.deliver.rsp = none := by
  unfold State.deliver; split <;> simp [*]

@[simp] theorem State.deliver_pending : s.deliver.pending = s.pending := by
  unfold State.deliver; split <;> rfl

@[simp] theorem State.deliver_taken : s.deliver.taken = s.taken ++ s.rsp.toList := by
  unfold State.deliver; split <;> simp [*]

/-! ### The value after reset (R32, R170) -/

@[simp] theorem State.reset_cfg : State.reset.cfg = false := rfl

@[simp] theorem State.reset_p : State.reset.p = 0#5 := rfl

@[simp] theorem State.reset_reg : State.reset.reg = [] := rfl

@[simp] theorem State.reset_cmd : State.reset.cmd = none := rfl

@[simp] theorem State.reset_rsp : State.reset.rsp = none := rfl

@[simp] theorem State.reset_pending : State.reset.pending = [] := rfl

@[simp] theorem State.reset_taken : State.reset.taken = [] := rfl

/-- Two states are equal if their fields are. -/
theorem State.ext_fields {s t : State} (hc : s.cfg = t.cfg) (hp : s.p = t.p) (hr : s.reg = t.reg) (hcmd : s.cmd = t.cmd)
    (hrsp : s.rsp = t.rsp) (hpe : s.pending = t.pending) (ht : s.taken = t.taken) : s = t := by
  cases s; cases t; simp_all

end Sys2Proof.Machine
end

