-- ==== Sys2Proof/Laws/Exec.lean ====
section
/-! SUPPORT. The commands and the step: each answers a next state, and which one it is. -/

namespace Sys2Proof.Machine

/-! ### The commands, by the condition each decides on -/

/-- What a next state of `INIT` is (R100). -/
theorem execInit_next {pv : Operand} {s t : State} (h : execInit pv s = .next t) :
    (validPrecision pv = true ∧ t = (s.configure pv).respond .ok 0#33) ∨
      (validPrecision pv = false ∧ t = s.raise .invalidPrecision (pv.setWidth 33)) := by
  unfold execInit at h
  split at h <;> cases h
  · exact .inl ⟨‹_›, rfl⟩
  · exact .inr ⟨by simpa using ‹¬ (_ = true)›, rfl⟩

/-- What a next state of `ADD` is (R110). -/
theorem execAdd_next {x : Operand} {s t : State} (h : execAdd x s = .next t) :
    (s.cfg = true ∧
        t = (s.update (splitIndex x s.p.toNat) (rank (splitRemainder x s.p.toNat) s.p.toNat)).respond .ok 0#33) ∨
      (s.cfg = false ∧ t = s.raise .notConfigured 0#33) := by
  unfold execAdd split at h
  split at h <;> cases h
  · exact .inl ⟨‹_›, rfl⟩
  · exact .inr ⟨by simpa using ‹¬ (_ = true)›, rfl⟩

/-- What a next state of `EST` is (R120). -/
theorem execEst_next {x : Operand} {s t : State} (h : execEst x s = .next t) :
    (s.cfg = true ∧ t = s.respond .ok (BitVec.ofNat 33 (s.reg.estimate s.p.toNat))) ∨
      (s.cfg = false ∧ t = s.raise .notConfigured 0#33) := by
  unfold execEst at h
  split at h <;> cases h
  · exact .inl ⟨‹_›, rfl⟩
  · exact .inr ⟨by simpa using ‹¬ (_ = true)›, rfl⟩

/-- What a next state of the reserved opcode is (R69). -/
theorem execRsvd_next {d : Operand} {s t : State} (h : execRsvd d s = .next t) : t = s.raise .illegalCommand 0#33 := by
  cases h; rfl

/-- No command faults or is refused a meaning (R11, R73). -/
theorem exec_total (i : Instr) (s : State) : ∃ t, exec i s = .next t := by
  cases i <;> simp only [exec, execInit, execAdd, execEst, execRsvd] <;> (try split) <;> exact ⟨_, rfl⟩

/-- What a command does at the ports: it is over, it holds one response, and it touches no pending action and no response
already delivered (R9, R62). -/
theorem exec_ports {i : Instr} {s t : State} (h : exec i s = .next t) :
    t.cmd = none ∧ t.rsp.isSome = true ∧ t.pending = s.pending ∧ t.taken = s.taken := by
  cases i with
  | init pv => rcases execInit_next h with ⟨_, rfl⟩ | ⟨_, rfl⟩ <;> simp
  | add x => rcases execAdd_next h with ⟨_, rfl⟩ | ⟨_, rfl⟩ <;> simp
  | est x => rcases execEst_next (x := x) h with ⟨_, rfl⟩ | ⟨_, rfl⟩ <;> simp
  | rsvd d => cases execRsvd_next (d := d) h; simp

/-! ### The step -/

theorem complete_total (w : CmdWord) (s : State) : ∃ t, exec (decode w) s = .next t ∧ complete w s = .next t.deliver := by
  obtain ⟨t, ht⟩ := exec_total (decode w) s
  exact ⟨t, ht, by simp [complete, ht]⟩

theorem abandon_total (w : CmdWord) (ran : Bool) (s : State) :
    (ran = false ∧ abandon w ran s = .next s.resetEdge) ∨
      (ran = true ∧ ∃ t, exec (decode w) s = .next t ∧ abandon w ran s = .next t.resetEdge) := by
  cases ran with
  | false => exact .inl ⟨rfl, rfl⟩
  | true =>
    obtain ⟨t, ht⟩ := exec_total (decode w) s
    exact .inr ⟨rfl, t, ht, by simp [abandon, ht]⟩

/-- Everything a step can do: deliver the response held; carry out and answer the command held; carry out the host's next
action (a command, a reset, a command abandoned before or after it ran); wait. -/
theorem step_cases (s : State) :
    (s.rsp ≠ none ∧ step s = .next s.deliver) ∨
    (s.rsp = none ∧ ∃ w t, s.cmd = some w ∧ exec (decode w) s = .next t ∧ step s = .next t.deliver) ∨
    (s.rsp = none ∧ s.cmd = none ∧ ∃ w rest t, s.pending = .command w :: rest ∧
      exec (decode w) ((s.withPending rest).accept w) = .next t ∧ step s = .next t.deliver) ∨
    (s.rsp = none ∧ s.cmd = none ∧ ∃ rest, s.pending = .reset :: rest ∧ step s = .next (s.withPending rest).resetEdge) ∨
    (s.rsp = none ∧ s.cmd = none ∧ ∃ w rest, s.pending = .abandoned w false :: rest ∧
      step s = .next ((s.withPending rest).accept w).resetEdge) ∨
    (s.rsp = none ∧ s.cmd = none ∧ ∃ w rest t, s.pending = .abandoned w true :: rest ∧
      exec (decode w) ((s.withPending rest).accept w) = .next t ∧ step s = .next t.resetEdge) ∨
    (s.rsp = none ∧ s.cmd = none ∧ s.pending = [] ∧ step s = .next s) := by
  obtain ⟨cfg, p, reg, cmd, rsp, pending, taken⟩ := s
  cases rsp with
  | some r => exact .inl ⟨by simp, rfl⟩
  | none =>
    cases cmd with
    | some w =>
      obtain ⟨t, h1, h2⟩ := complete_total w ⟨cfg, p, reg, some w, none, pending, taken⟩
      exact .inr (.inl ⟨rfl, w, t, rfl, h1, h2⟩)
    | none =>
      cases pending with
      | nil => exact .inr (.inr (.inr (.inr (.inr (.inr ⟨rfl, rfl, rfl, rfl⟩)))))
      | cons a rest =>
        cases a with
        | command w =>
          obtain ⟨t, h1, h2⟩ := complete_total w ((State.withPending rest
            ⟨cfg, p, reg, none, none, .command w :: rest, taken⟩).accept w)
          exact .inr (.inr (.inl ⟨rfl, rfl, w, rest, t, rfl, h1, h2⟩))
        | reset => exact .inr (.inr (.inr (.inl ⟨rfl, rfl, rest, rfl, rfl⟩)))
        | abandoned w ran =>
          rcases abandon_total w ran ((State.withPending rest
            ⟨cfg, p, reg, none, none, .abandoned w ran :: rest, taken⟩).accept w) with ⟨rfl, h⟩ | ⟨rfl, t, h1, h2⟩
          · exact .inr (.inr (.inr (.inr (.inl ⟨rfl, rfl, w, rest, rfl, h⟩))))
          · exact .inr (.inr (.inr (.inr (.inr (.inl ⟨rfl, rfl, w, rest, t, rfl, h1, h2⟩)))))

end Sys2Proof.Machine
end

