-- ==== Sys2Proof/Laws/Operands.lean ====
section
/-! SUPPORT. The functions on a hash in numbers: what `SPLIT` gives (40_split_rank.md R80), and what `TZ` and `RANK` find. -/

namespace Sys2Proof.Machine

/-- The index is `h mod 2^p` (R80). -/
theorem splitIndex_toNat (h : Operand) {p : Nat} (hp : p ≤ 16) : (splitIndex h p).toNat = h.toNat % 2 ^ p := by
  have h16 : 2 ^ p ≤ 2 ^ 16 := Nat.pow_le_pow_right (by omega) hp
  have hpos : 0 < 2 ^ p := Nat.two_pow_pos p
  have hmod : h.toNat % 2 ^ p < 2 ^ p := Nat.mod_lt _ hpos
  unfold splitIndex indexMask
  rw [BitVec.toNat_setWidth, BitVec.toNat_and, BitVec.toNat_ofNat, Nat.mod_eq_of_lt (a := 2 ^ p - 1) (by omega),
    Nat.and_two_pow_sub_one_eq_mod, Nat.mod_eq_of_lt (by omega)]

/-- The index lies in the live part (R81 (a), R44). -/
theorem splitIndex_lt (h : Operand) {p : Nat} (hp : p ≤ 16) : (splitIndex h p).toNat < 2 ^ p := by
  rw [splitIndex_toNat h hp]; exact Nat.mod_lt _ (Nat.two_pow_pos p)

/-- The remainder is `h div 2^p` (R80). -/
theorem splitRemainder_toNat (h : Operand) (p : Nat) : (splitRemainder h p).toNat = h.toNat / 2 ^ p := by
  simp [splitRemainder, Nat.shiftRight_eq_div_pow]

/-- `RANK` of the all-zero remainder (R85). -/
@[simp] theorem rank_zero (p : Nat) : rank 0#32 p = Config.rankMax p := rfl

/-- `RANK` of a non-zero remainder (R84). -/
theorem rank_of_ne_zero {w : Operand} (hw : w ≠ 0#32) (p : Nat) : rank w p = tz w + 1 := if_pos hw

end Sys2Proof.Machine
end

