-- ==== Sys2Proof/Laws/PerInstr.lean ====
section
/-! SUPPORT. What is said of every command as syntax, one lemma per constructor. -/

namespace Sys2Proof.Laws.EncodedFields

/-- The word of a command holds its opcode in bits 33:32 and its operand in bits 31:0 (R63, R65). -/
def Statement (i : Instr) : Prop :=
  opField (encode i) = i.opcode ∧ dataField (encode i) = i.operand

theorem fields_of_append (a : BitVec 2) (b : BitVec 32) :
    opField (a ++ b) = a ∧ dataField (a ++ b) = b := by
  constructor
  · apply BitVec.eq_of_getLsbD_eq
    intro k hk
    have := BitVec.getLsbD_append (x := a) (y := b) (i := 32 + k)
    simp_all [opField]
  · apply BitVec.eq_of_getLsbD_eq
    intro k hk
    have := BitVec.getLsbD_append (x := a) (y := b) (i := k)
    simp_all [dataField]

theorem init (pv : Operand) : Statement (.init pv) := fields_of_append _ _

theorem add (h : Operand) : Statement (.add h) := fields_of_append _ _

theorem est (x : Operand) : Statement (.est x) := fields_of_append _ _

theorem rsvd (d : Operand) : Statement (.rsvd d) := fields_of_append _ _

end Sys2Proof.Laws.EncodedFields
end

