-- ==== Sys2Proof/Laws/Ports.lean ====
section
/-! SUPPORT. The clock-edge view: what carrying out a command and accepting one lead to. -/

namespace Sys2Proof.Machine

@[simp] theorem Clocked.onAccept_st (c : Clocked) (w : CmdWord) (n : Nat) : (c.onAccept w n).st = c.st.accept w := rfl

@[simp] theorem Clocked.onAccept_wait (c : Clocked) (w : CmdWord) (n : Nat) : (c.onAccept w n).wait = n := rfl

@[simp] theorem Clocked.onAccept_count (c : Clocked) (w : CmdWord) (n : Nat) : (c.onAccept w n).count = c.count + 1 := rfl

@[simp] theorem Clocked.onAccept_offer (c : Clocked) (w : CmdWord) (n : Nat) : (c.onAccept w n).offer = none := rfl

@[simp] theorem Clocked.onAccept_accepted (c : Clocked) (w : CmdWord) (n : Nat) :
    (c.onAccept w n).accepted = c.accepted ++ [w] := rfl

@[simp] theorem Clocked.onAccept_answered (c : Clocked) (w : CmdWord) (n : Nat) :
    (c.onAccept w n).answered = c.answered := rfl

/-- Carrying out a command replaces the state by the one `exec` answers, and nothing else. -/
theorem Clocked.carryOut_cases (c : Clocked) (w : CmdWord) :
    ∃ t, exec (decode w) c.st = .next t ∧ c.carryOut w = .next { c with st := t } := by
  obtain ⟨t, ht⟩ := exec_total (decode w) c.st
  exact ⟨t, ht, by simp [Clocked.carryOut, ht]⟩

/-- Everything an acceptance can lead to: the command is carried out at once, or held for the rest of its latency. -/
theorem Clocked.begin_cases (c : Clocked) (w : CmdWord) :
    (latency (decode w) c.count c.st = 0 ∧ ∃ t, exec (decode w) (c.st.accept w) = .next t ∧
      c.begin w = .next { c.onAccept w 0 with st := t }) ∨
    ∃ n, latency (decode w) c.count c.st = n + 1 ∧ c.begin w = .next (c.onAccept w n) := by
  unfold Clocked.begin
  cases h : latency (decode w) c.count c.st with
  | zero =>
    obtain ⟨t, h1, h2⟩ := Clocked.carryOut_cases (c.onAccept w 0) w
    exact .inl ⟨rfl, t, h1, h2⟩
  | succ n => exact .inr ⟨n, rfl, rfl⟩

end Sys2Proof.Machine
end

