-- ==== Sys2Proof/Tests/Slice0.lean ====
section
/-! SUPPORT. The model's own tests: ill-formed terms that the checks refuse, words written out from the spec's encodings,
one-step tests whose expected results are those of 95_test_vectors.md, and a witness for each obligation that has
hypotheses. -/

namespace Sys2Proof.Tests

open Sys2Proof Sys2Proof.Machine

/-! ### Well-formedness: terms that are refused -/

theorem test_wellFormed_operand_of_33_bits : Line.wellFormed ⟨.add, some (2 ^ 32)⟩ = false := by decide

theorem test_wellFormed_init_without_operand : Line.wellFormed ⟨.init, none⟩ = false := by decide

theorem test_wellFormed_est_without_operand : Line.wellFormed ⟨.est, none⟩ = true := by decide

theorem test_wellFormedWord_bit_34 : wellFormedWord (2 ^ 34) = false ∧ wellFormedWord (2 ^ 34 - 1) = true := by decide

/-- Every command is well-formed (R63, R101): a precision out of range is a command that is answered with an error. -/
theorem test_wellFormed_init_out_of_range : (Instr.init 17#32).wellFormed = true := by decide

theorem test_assemble_ill_formed_line : Line.assemble ⟨.rsvd, none⟩ = none := by decide

theorem test_bank_forms_refused :
    Memory.wf [(5, 0#5)] = false ∧ Memory.wf [(5, 1#5), (3, 1#5)] = false ∧ Memory.wf [(5, 1#5), (5, 2#5)] = false ∧
    Memory.wf [(65536, 1#5)] = false ∧ Memory.wf [(3, 1#5), (65535, 29#5)] = true := by decide

/-! ### Decoding: words written out from 30_encoding.md R63 and R65, `CW = op * 2^32 + data` -/

/-- W1: op 00, data 4. -/
theorem test_decode_init : decode 0b00_00000000000000000000000000000100#34 = .init 4#32 := by decide

/-- W3: op 01, data 0xD5. -/
theorem test_decode_add : decode 0b01_00000000000000000000000011010101#34 = .add 0xD5#32 := by decide

/-- W6: op 10, data 0x12345678. -/
theorem test_decode_est : decode 0b10_00010010001101000101011001111000#34 = .est 0x12345678#32 := by decide

/-- W8: the all-one word. -/
theorem test_decode_rsvd : decode 0b11_11111111111111111111111111111111#34 = .rsvd 0xFFFFFFFF#32 := by decide

theorem test_encode_words :
    encode (.init 17#32) = 0x000000011#34 ∧ encode (.add 0xDEADBEEF#32) = 0x1DEADBEEF#34 ∧
    encode (.est 0#32) = 0x200000000#34 ∧ encode (.rsvd 0#32) = 0x300000000#34 := by decide

theorem test_decodeTableWord :
    decodeTableWord 34 0x1000000D5 = some (.add 0xD5#32) ∧ decodeTableWord 40 0x3FFFFFFFF = some (.rsvd 0xFFFFFFFF#32) ∧
    decodeTableWord 40 0x400000000 = none := by decide

theorem test_decodeNumber_rejects_by_name : (decodeNumber 0x400000000 matches .error .widerThanCommandWord) = true := by
  decide

/-- Q3 to Q6: response words. -/
theorem test_response_words :
    encodeResponse .ok 6195817811#33 = 0x1714CAD53#35 ∧
    encodeResponse .invalidPrecision 4294967295#33 = 0x2FFFFFFFF#35 ∧
    encodeResponse .notConfigured 0#33 = 0x400000000#35 ∧ encodeResponse .illegalCommand 0#33 = 0x600000000#35 := by decide

/-- The three number bases of R72, and `EST` without operand. -/
theorem test_parse_lines :
    parseCommand "ADD 0xD5".toList = some (.add 0xD5#32) ∧ parseCommand "INIT 0b100".toList = some (.init 4#32) ∧
    parseCommand "EST".toList = some (.est 0#32) ∧ parseCommand "RSVD 4294967296".toList = none := by decide +kernel

theorem test_response_text : responseText 0x1714CAD53#35 = "-> OK 6195817811".toList := by decide +kernel

/-! ### One step of each command -/

/-- A configured block, ready for a command, with a bank and the host's actions. -/
def configured (p : BitVec 5) (reg : Memory) (pending : List HostAction := []) : State :=
  { State.reset with cfg := true, p := p, reg := reg, pending := pending }

/-- The block of the vectors I7 to I9 and Z2: `P = 4`, `REG[5] = 1`. -/
def small5 : State := configured 4#5 [(5, 1#5)]

/-- The next state, if there is one. -/
def nextOf (o : Host.Outcome State Fault Refusal) : Option State :=
  match o with
  | .next t => some t
  | .fault _ => none
  | .refused _ => none

/-- I6: the upper bits of the operand of `INIT` are not ignored; `INVALID_PRECISION 2147483652`. -/
theorem test_init_checks_the_whole_operand :
    nextOf (exec (.init 0x80000004#32) small5) = some { small5 with rsp := some 0x280000004#35 } := by decide

/-- I10: `INIT 4` after a lifetime at `P = 10`: entries below 16 are cleared, the older ones are not live. -/
theorem test_init_clears_the_live_entries :
    nextOf (exec (.init 4#32) (configured 10#5 [(0, 3#5), (15, 1#5), (16, 2#5), (1023, 7#5)])) =
      some { configured 4#5 [(16, 2#5), (1023, 7#5)] with rsp := some 0x000000000#35 } := by decide

/-- K12 at `P = 16`: index 65535, zero remainder, rank 17. -/
theorem test_add_zero_remainder_at_the_last_index :
    nextOf (exec (.add 0x0000FFFF#32) (configured 16#5 [(0, 3#5)])) =
      some { configured 16#5 [(0, 3#5), (65535, 17#5)] with rsp := some 0x000000000#35 } := by decide

/-- A4: rank 1 at an entry that holds 4. -/
theorem test_add_smaller_rank :
    nextOf (exec (.add 0x00000015#32) (configured 4#5 [(5, 4#5)])) =
      some { configured 4#5 [(5, 4#5)] with rsp := some 0x000000000#35 } := by decide

/-- The bank that holds a list of values from index 0 up. -/
def bankOf (vs : List Nat) : Memory :=
  (vs.zipIdx.map fun c => (c.2, BitVec.ofNat 5 c.1)).filter fun c => c.2 ≠ 0#5

/-- E4: 4 x 0, 8 x 5, 4 x 6 at `P = 4`. -/
def bankE4 : Memory := bankOf (List.replicate 4 0 ++ List.replicate 8 5 ++ List.replicate 4 6)

/-- E5: 4 x 0, 7 x 5, 5 x 6 at `P = 4`. -/
def bankE5 : Memory := bankOf (List.replicate 4 0 ++ List.replicate 7 5 ++ List.replicate 5 6)

/-- E7: 16 x 1 at `P = 4`. -/
def bankE7 : Memory := bankOf (List.replicate 16 1)

/-- E4: just inside the small range; `LC(4, 4) = 22`. -/
theorem test_est_linear_counting :
    nextOf (exec (.est 0#32) (configured 4#5 bankE4)) =
      some { configured 4#5 bankE4 with rsp := some 0x000000016#35 } := by decide +kernel

/-- P5, E12: the greatest result at `P = 4`, 5781025980, needs bit 32. -/
theorem test_est_thirty_three_bits :
    nextOf (exec (.est 0#32) (configured 4#5 (bankOf (List.replicate 16 29)))) =
      some { configured 4#5 (bankOf (List.replicate 16 29)) with rsp := some 0x1589374BC#35 } := by decide +kernel

/-- Z2: `RSVD 7` on a configured block. -/
theorem test_rsvd_configured :
    nextOf (exec (.rsvd 7#32) small5) = some { small5 with rsp := some 0x600000000#35 } := by decide

/-- The all-one word as the first command after reset: `ILLEGAL_COMMAND 0`, delivered. -/
theorem test_rsvd_first_command :
    nextOf (step (State.reset.withFetchWord 34 0x3FFFFFFFF)) = some { State.reset with taken := [0x600000000#35] } := by
  decide

/-- Z3: a reset of a configured block. -/
theorem test_reset_of_a_configured_block :
    nextOf (step (configured 4#5 [(5, 1#5)] [.reset])) = some { small5 with cfg := false } := by decide

/-! ### Witnesses: a state and operands that meet the hypotheses of an obligation -/

/-- A second configured state, at the greatest precision, with the greatest rank in its last entry. -/
def large16 : State := configured 16#5 [(0, 1#5), (65535, 17#5)]

theorem witness_DecodeAndEncodeAgreeOnEveryCommand : (Instr.init 0xFFFFFFFF#32).wellFormed = true := by decide

/-- One word per clause, at the ends of its range. -/
theorem witness_OpcodeMapInMatchAndMaskForm :
    0x0FFFFFFFF#34 &&& 0x300000000#34 = 0x000000000#34 ∧ 0x100000000#34 &&& 0x300000000#34 = 0x100000000#34 ∧
    0x1FFFFFFFF#34 &&& 0x300000000#34 = 0x100000000#34 ∧ 0x200000000#34 &&& 0x300000000#34 = 0x200000000#34 ∧
    0x2FFFFFFFF#34 &&& 0x300000000#34 = 0x200000000#34 ∧ 0x300000000#34 &&& 0x300000000#34 = 0x300000000#34 := by decide

theorem witness_StepRunsTheDecodedCommand :
    (small5.withFetchWord 34 0x1000000D5).cmd = none ∧ (small5.withFetchWord 34 0x1000000D5).rsp = none ∧
    (small5.withFetchWord 34 0x1000000D5).pending = .command 0x1000000D5#34 :: [] := by decide

theorem witness_BlockWithoutCommandWaits : small5.cmd = none ∧ small5.rsp = none ∧ small5.pending = [] := by decide

theorem witness_PendingCommandsRunAsTheSequenceFunction :
    let s := configured 4#5 [] [.command 0x1000000D5#34, .command 0x200000000#34, .reset]
    s.cmd = none ∧ s.rsp = none ∧
      s.pending = [0x1000000D5#34, 0x200000000#34].map .command ++ [.reset] := by decide

/-- The status is not `OK`. -/
theorem witness_CommandCompletesOrIsRefusedUnchanged :
    ∃ t, exec (.init 3#32) small5 = .next t ∧ t.rsp = some (encodeResponse .invalidPrecision 3#33) := ⟨_, rfl, by decide⟩

/-- A step that delivers, one that carries out a command, one that does neither, and one that abandons. -/
theorem witness_EveryCommandIsAnsweredExactlyOnce :
    ({ small5 with rsp := some 0#35 } : State).rsp ≠ none ∧
    (configured 4#5 [] [.command 0#34]).nextAction = some (.command 0#34) ∧
    ({ small5 with cmd := some 0#34 } : State).nextAction = some (.command 0#34) ∧
    small5.rsp = none ∧ small5.nextAction = none ∧
    (configured 4#5 [] [.abandoned 0#34 true]).nextAction = some (.abandoned 0#34 true) := by decide

/-- Both clauses at the ends of the range. -/
theorem witness_InitConfiguresOrIsRefused :
    (4 ≤ (4#32).toNat ∧ (4#32).toNat ≤ 16) ∧ (4 ≤ (16#32).toNat ∧ (16#32).toNat ≤ 16) ∧
    ¬(4 ≤ (3#32).toNat ∧ (3#32).toNat ≤ 16) ∧ ¬(4 ≤ (17#32).toNat ∧ (17#32).toNat ≤ 16) := by decide

theorem witness_InitAcceptsExactlyThirteenOperands :
    (4#32 ∈ (List.range 13).map fun k => BitVec.ofNat 32 (k + 4)) ∧
    (16#32 ∈ (List.range 13).map fun k => BitVec.ofNat 32 (k + 4)) ∧
    (17#32 ∉ (List.range 13).map fun k => BitVec.ofNat 32 (k + 4)) ∧ 3#32 ∈ [0#32, 3#32, 17#32, 0x80000004#32] := by
  decide

theorem witness_InitForgetsTheOldLifetime :
    small5.Inv ∧ large16.Inv ∧ 4 ≤ (16#32).toNat ∧ (16#32).toNat ≤ 16 := by decide

theorem witness_BiasConstantsAreTheSpecFractions : (4 ≤ 7 ∧ 7 ≤ 16 ∧ 7 ≤ 7) ∧ 4 ≤ 4 ∧ 4 ≤ 16 := by decide

theorem witness_SplitIsExact : (4 ≤ 4 ∧ 4 ≤ 16) ∧ 4 ≤ 16 ∧ 16 ≤ 16 := by decide

/-- `2^27` at precision 4 (the greatest count, `31 - 4`) and 8. -/
theorem witness_TrailingZeroCountIsTheLowestSetBit :
    0x8000000#32 ≠ 0#32 ∧ (0x8000000#32).toNat < 2 ^ (32 - 4) ∧ tz 0x8000000#32 = 31 - 4 ∧ 2 < tz 8#32 := by decide

theorem witness_RankOfNonZeroAndAllZeroRemainders :
    0x8000000#32 ≠ 0#32 ∧ (0x8000000#32).toNat < 2 ^ (32 - 4) ∧ (0x8000000#32).toNat = 2 ^ (31 - 4) ∧
    (0xFFFF#32).toNat < 2 ^ (32 - 16) ∧ (0xFFFF#32).toNat % 2 = 1 := by decide

theorem witness_RanksFollowTheGeometricLaw :
    (0#32).toNat < 2 ^ (32 - 16) ∧ (0x8000#32).toNat < 2 ^ (32 - 16) ∧ 1 ≤ 16 ∧ 16 ≤ 32 - 16 := by decide

/-- Both clauses. -/
theorem witness_AddRaisesOneRegisterToTheRank :
    (small5.Inv ∧ small5.cfg = true) ∧ (large16.Inv ∧ large16.cfg = true) ∧ (State.reset.reg.wf = true ∧ State.reset.cfg = false) := by
  decide

theorem witness_AddStaysInsideItsBounds :
    large16.Inv ∧ large16.cfg = true ∧ ∃ t, exec (.add 0x0000FFFF#32) large16 = .next t := ⟨by decide, rfl, _, rfl⟩

theorem witness_UpdateIsMonotoneIdempotentCommutative : small5.reg.wf = true ∧ 4 < 32 ∧ 29 < 32 := by decide

/-- The rank is that of the entry; and a sequence with an `ADD`, an `EST` and a refused `INIT` between the two `ADD`s. -/
theorem witness_AddIsIdempotentInALifetime :
    small5.Inv ∧ small5.cfg = true ∧
    rank (splitRemainder 0xD5#32 small5.p.toNat) small5.p.toNat ≤
      (small5.reg.read (splitIndex 0xD5#32 small5.p.toNat).toNat).toNat ∧
    ∀ w ∈ [0x100000085#34, 0x200000000#34, 0x000000003#34], startsLifetime w = false := by
  simp only [List.forall_mem_cons, List.not_mem_nil, false_implies, implies_true, and_true]
  decide

theorem witness_AddsDependOnlyOnTheSetOfHashes :
    small5.Inv ∧ small5.cfg = true ∧ ∀ h, h ∈ [0xD5#32, 0x85#32, 0xD5#32] ↔ h ∈ [0x85#32, 0xD5#32] :=
  ⟨by decide, rfl, by intro h; simp only [List.mem_cons, List.not_mem_nil]; tauto⟩

theorem witness_RegisterIsTheGreatestRankOfItsLifetime :
    large16.Inv ∧ 4 ≤ (4#32).toNat ∧ (4#32).toNat ≤ 16 ∧
    (∀ w ∈ [0x1000000D5#34, 0x200000000#34], startsLifetime w = false) ∧ 15 < 2 ^ (4#32).toNat := by
  simp only [List.forall_mem_cons, List.not_mem_nil, false_implies, implies_true, and_true]
  decide

theorem witness_ZeroCountCountsTheZeroRegisters : large16.reg.wf = true ∧ 16 ≤ 16 := by decide

theorem witness_HarmonicSumIsTheSumOverLiveRegisters :
    bankE4.wf = true ∧ 4 ≤ 16 ∧ (∀ j, j < 2 ^ 4 → (bankE4.read j).toNat ≤ 29) ∧ 0 < 2 ^ 4 ∧ bankE4.read 0 = 0#5 := by
  decide +kernel

theorem witness_HarmonicSumFitsItsAccumulator : large16.Inv ∧ large16.cfg = true := by decide

theorem witness_SmallRangeTestIsExact :
    ((configured 4#5 bankE4).Inv ∧ small 4 (bankE4.harmonicSum 4) = true) ∧
    ((configured 4#5 bankE5).Inv ∧ small 4 (bankE5.harmonicSum 4) = false) := by decide +kernel

theorem witness_RawEstimateIsTheFloorOfE : (configured 4#5 bankE5).Inv ∧ (configured 4#5 bankE5).cfg = true := by
  decide +kernel

theorem witness_RawEstimateGrowsWithTheRegisters :
    bankE4.wf = true ∧ bankE5.wf = true ∧
    ∀ j, j < 2 ^ 4 → (bankE4.read j).toNat ≤ (bankE5.read j).toNat ∧ (bankE5.read j).toNat ≤ 29 := by decide +kernel

/-- The ends of the range of `V` at both ends of that of `p`. -/
theorem witness_LogarithmErrorIsBelowTheMargin :
    (4 ≤ 4 ∧ 4 ≤ 16 ∧ 1 ≤ 1 ∧ 1 ≤ 2 ^ 4) ∧ (4 ≤ 16 ∧ 16 ≤ 16 ∧ 1 ≤ 65536 ∧ 65536 ≤ 2 ^ 16) := by decide

theorem witness_LinearCountIsTheFloorOfTheRealLogarithm :
    (4 ≤ 4 ∧ 4 ≤ 16 ∧ 1 ≤ 16 ∧ 16 ≤ 2 ^ 4) ∧ (4 ≤ 16 ∧ 16 ≤ 16 ∧ 1 ≤ 1 ∧ 1 ≤ 2 ^ 16) := by decide

/-- Both clauses. -/
theorem witness_EstAnswersAndWritesNothing : small5.cfg = true ∧ State.reset.cfg = false := by decide

/-- The live registers of a bank at precision 4, summed: what the rational quantities of the three branches come to. -/
theorem specSum_four (m : Memory) :
    m.specSum 4 = ((List.range 16).map fun j => (1 / 2 : ℚ) ^ (m.read j).toNat).sum := by
  simp [Memory.specSum, Finset.sum_range_succ, List.range_succ, add_assoc]

theorem specSum_E4 : bankE4.specSum 4 = 4 + 8 / 32 + 4 / 64 := by
  rw [specSum_four]; decide +kernel

theorem specSum_E5 : bankE5.specSum 4 = 4 + 7 / 32 + 5 / 64 := by
  rw [specSum_four]; decide +kernel

theorem specSum_E7 : bankE7.specSum 4 = 8 := by
  rw [specSum_four]; decide +kernel

theorem specZeros_E4_E7 : bankE4.specZeros 4 = 4 ∧ bankE7.specZeros 4 = 0 := by decide +kernel

/-- The linear-counting branch (E4), the branch with no zero register (E7) and the raw branch (E5). -/
theorem witness_EstimateFollowsTheSpecFormula :
    ((configured 4#5 bankE4).Inv ∧ bankE4.specRaw 4 ≤ 2.5 * 2 ^ 4 ∧ bankE4.specZeros 4 ≠ 0) ∧
    ((configured 4#5 bankE7).Inv ∧ bankE7.specRaw 4 ≤ 2.5 * 2 ^ 4 ∧ bankE7.specZeros 4 = 0) ∧
    ((configured 4#5 bankE5).Inv ∧ 2.5 * 2 ^ 4 < bankE5.specRaw 4) ∧
    (State.reset.reg.wf = true ∧ State.reset.cfg = false) := by
  refine ⟨⟨by decide +kernel, ?_, by rw [specZeros_E4_E7.1]; decide⟩, ⟨by decide +kernel, ?_, specZeros_E4_E7.2⟩,
    ⟨by decide +kernel, ?_⟩, rfl, rfl⟩
  · rw [Memory.specRaw, specSum_E4]; norm_num [alpha]
  · rw [Memory.specRaw, specSum_E7]; norm_num [alpha]
  · rw [Memory.specRaw, specSum_E5]; norm_num [alpha]

/-- A state below the greatest estimate, and one that reaches it: every live register holds `33 - 4`. -/
theorem witness_EstimateFitsThirtyThreeBits :
    (large16.Inv ∧ large16.cfg = true) ∧ (configured 4#5 (bankOf (List.replicate 16 29))).Inv ∧
    ∀ j, j < 2 ^ 4 → (Memory.read (bankOf (List.replicate 16 29)) j).toNat = 33 - 4 := by decide +kernel

theorem witness_EmptyEstimatorEstimatesZero :
    large16.Inv ∧ 4 ≤ (4#32).toNat ∧ (4#32).toNat ≤ 16 ∧ ∃ t, exec (.init 4#32) large16 = .next t :=
  ⟨by decide, by decide, by decide, _, rfl⟩

/-- Two banks with the same histogram: the value 1 at entry 5 and at entry 9. -/
theorem witness_EstimateDependsOnlyOnTheHistogram :
    Memory.wf [(5, 1#5)] = true ∧ Memory.wf [(9, 1#5)] = true ∧
    ∀ v : Entry, ((Finset.range (2 ^ 4)).filter fun j => Memory.read [(5, 1#5)] j = v).card =
      ((Finset.range (2 ^ 4)).filter fun j => Memory.read [(9, 1#5)] j = v).card := by decide +kernel

theorem witness_ReservedOpcodeIsAlwaysIllegal :
    3 * 2 ^ 32 ≤ (0x300000000#34).toNat ∧ 3 * 2 ^ 32 ≤ (0x3FFFFFFFF#34).toNat := by decide

/-- Each of the four statuses, and a precision on either side of the range. -/
theorem witness_ErrorOutcomesAreExactlyTheListed :
    (3#32).toNat < 4 ∧ 16 < (17#32).toNat ∧ State.reset.cfg = false ∧ small5.cfg = true ∧
    (nextOf (exec (.init 17#32) small5)).map (·.rsp) = some (some (encodeResponse .invalidPrecision 17#33)) ∧
    (nextOf (exec (.add 0#32) State.reset)).map (·.rsp) = some (some (encodeResponse .notConfigured 0#33)) ∧
    (nextOf (exec (.rsvd 0#32) small5)).map (·.rsp) = some (some (encodeResponse .illegalCommand 0#33)) := by decide

theorem witness_StepKeepsTheInvariant :
    (small5.withFetchWord 34 0x1000000F5).Inv ∧ ∃ t, step (small5.withFetchWord 34 0x1000000F5) = .next t :=
  ⟨by decide, _, rfl⟩

/-- Both clauses: a live register at either end, a step that leaves `P` and one that writes it. -/
theorem witness_OnlyAValidInitWritesThePrecision :
    (large16.Inv ∧ large16.cfg = true ∧ 65535 < 2 ^ large16.p.toNat) ∧
    (nextOf (step (small5.withFetchWord 34 0x1000000D5))).map (·.p) = some 4#5 ∧
    (nextOf (step (small5.withFetchWord 34 0x000000010))).map (·.p) = some 16#5 := by decide

theorem witness_RegistersNeverDecreaseInALifetime :
    let s := small5.withFetchWord 34 0x100000085
    s.Inv ∧ (∃ t, step s = .next t) ∧ ∀ a, s.nextAction = some a → a.endsLifetime = false :=
  ⟨by decide, ⟨_, rfl⟩, by intro a h; cases h; decide⟩

/-- Both clauses. -/
theorem witness_OnlyInitSetsAndOnlyResetClearsCfg :
    ((nextOf (step (State.reset.withFetchWord 34 0x000000004))).map (·.cfg) = some true ∧ State.reset.cfg = false) ∧
    ((nextOf (step (configured 4#5 [] [.reset]))).map (·.cfg) = some false ∧ small5.cfg = true) ∧
    (nextOf (step (configured 4#5 [] [.abandoned 0x1000000D5#34 true]))).map (·.cfg) = some false := by decide

theorem witness_ResetClearsCfgAndNothingElse :
    let s := configured 4#5 [(5, 1#5)] [.reset]
    s.cmd = none ∧ s.rsp = none ∧ s.pending = .reset :: [] ∧ ∃ t, step s = .next t := ⟨rfl, rfl, rfl, _, rfl⟩

/-- Abandoned after it was carried out, and before. -/
theorem witness_AbandonedCommandIsNeverAnswered :
    let s := configured 4#5 [(5, 1#5)] [.abandoned 0x00000000A#34 true]
    let t := configured 4#5 [(5, 1#5)] [.abandoned 0x00000000A#34 false]
    (s.Inv ∧ s.cmd = none ∧ s.rsp = none ∧ s.pending = .abandoned 0x00000000A#34 true :: []) ∧
    (t.Inv ∧ t.cmd = none ∧ t.rsp = none ∧ t.pending = .abandoned 0x00000000A#34 false :: []) := by decide

/-- Two states that differ in what cannot be observed: a dead entry; and, unconfigured, `P` and the bank. -/
theorem witness_ArchitecturalStateDecidesEveryResponse :
    (small5.Inv ∧ (configured 4#5 [(5, 1#5), (16, 7#5)]).Inv ∧ small5.arch = (configured 4#5 [(5, 1#5), (16, 7#5)]).arch) ∧
    ({ small5 with cfg := false }.Inv ∧ ({ small5 with cfg := false } : State).arch = State.reset.arch) := by decide

/-! ### Witnesses at the clock-edge view -/

/-- A block at its pins that has accepted `ADD 0xD5` as its first command, with `n` edges left. -/
def inFlight (n : Nat) : Clocked :=
  { Clocked.reset with
    st := State.reset.accept 0x1000000D5#34, wait := n, count := 1, accepted := [0x1000000D5#34] }

/-- The same block with the response held. -/
def answering : Clocked :=
  { Clocked.reset with
    st := { State.reset with rsp := some 0x400000000#35 }, count := 1, accepted := [0x1000000D5#34] }

/-- Pins with nothing offered. -/
def quiet (ready : Bool) : Pins := ⟨false, false, 0#2, 0#32, ready⟩

/-- Pins that offer a command word. -/
def offering (op : BitVec 2) (data : Operand) : Pins := ⟨false, true, op, data, false⟩

theorem witness_PinsDeliverTheSequenceFunction :
    (inFlight 0).st.Inv ∧ (inFlight 0).Sim ∧ ∃ c', (inFlight 0).tick (quiet false) = .next c' :=
  ⟨by decide, ⟨[], rfl, rfl, rfl⟩, _, rfl⟩

/-- Whatever its latency is, a command is accepted. -/
theorem acceptance : ∃ c', Clocked.reset.tick (offering 1#2 0xD5#32) = .next c' := by
  rcases Clocked.begin_cases Clocked.reset (offering 1#2 0xD5#32).word with ⟨_, _, _, e⟩ | ⟨_, _, e⟩ <;> exact ⟨_, e⟩

/-- An acceptance, a delivery, a held response that is not taken, a command in the block, and a reset. -/
theorem witness_TransfersHappenOnlyOnValidAndReady :
    (∃ c', Clocked.reset.tick (offering 1#2 0xD5#32) = .next c') ∧ (∃ c', answering.tick (quiet true) = .next c') ∧
    (answering.st.rsp = some 0x400000000#35 ∧ ∃ c', answering.tick (quiet false) = .next c') ∧
    ((inFlight 2).st.cmd ≠ none ∧ ∃ c', (inFlight 2).tick (quiet false) = .next c') ∧
    ∃ c', (inFlight 2).tick ⟨true, false, 0#2, 0#32, false⟩ = .next c' :=
  ⟨acceptance, ⟨_, rfl⟩, ⟨rfl, _, rfl⟩, ⟨by decide, _, rfl⟩, _, rfl⟩

theorem witness_EveryAcceptedCommandIsAnsweredInTime :
    (inFlight 2).st.cmd = some 0x1000000D5#34 ∧ (inFlight 2).st.rsp = none ∧
    [quiet false, quiet true, quiet false].length = (inFlight 2).wait + 1 ∧
    (∀ q ∈ [quiet false, quiet true, quiet false], q.rst = false ∧ q.cmdValid = false) ∧
    (quiet true).rst = false ∧ (quiet true).cmdValid = false ∧ (quiet true).rspReady = true := by decide

/-- As many quiet edges as the latency says, whatever it is. -/
theorem witness_ResponseIsHeldAfterExactlyTheLatency :
    let pins := offering 1#2 0xD5#32
    let ps := List.replicate (latency (decode pins.word) Clocked.reset.count Clocked.reset.st) (quiet true)
    Clocked.reset.st.cmd = none ∧ Clocked.reset.st.rsp = none ∧ pins.rst = false ∧ pins.cmdValid = true ∧
    Clocked.reset.broken pins = false ∧ (∀ q ∈ ps, q.rst = false ∧ q.cmdValid = false) ∧
    ps.length = latency (decode pins.word) Clocked.reset.count Clocked.reset.st :=
  ⟨rfl, rfl, rfl, rfl, rfl, fun _ hq => by cases List.eq_of_mem_replicate hq; decide, List.length_replicate⟩

/-- An edge that is refused, one that holds the word and one that withdraws it. -/
theorem witness_EdgeIsRefusedOnlyForABrokenHandshake :
    let c : Clocked := { inFlight 2 with offer := some 0x200000000#34 }
    c.tick (offering 1#2 0#32) = .refused .brokenHandshake ∧ (∃ c', c.tick (offering 2#2 0#32) = .next c') ∧
    ∃ c', c.tick (quiet false) = .next c' := ⟨rfl, ⟨_, rfl⟩, _, rfl⟩

/-- A hash on pairs that two values share. -/
theorem witness_HashedValuesAddOnce :
    let hash : Nat × Nat → Operand := fun v => BitVec.ofNat 32 (v.1 + v.2)
    small5.Inv ∧ small5.cfg = true ∧ hash (1, 2) = hash (2, 1) ∧
    ∃ t u, exec (Instr.addv hash (1, 2)) small5 = .next t ∧ exec (Instr.addv hash (2, 1)) t = .next u :=
  ⟨by decide, rfl, rfl, _, _, rfl, rfl⟩

end Sys2Proof.Tests
end

section
/-! PROOFS. The statements of 00_scope.md. -/

namespace Sys2Proof.Machine

/-- The two outcomes of a command (R11): it completes with status `OK`, or it is an error taken in the state it found. -/
theorem exec_completes_or_raises {i : Instr} {s t : State} (h : exec i s = .next t) :
    (∃ d, t.rsp = some (encodeResponse .ok d)) ∨ ∃ error info, error ≠ .ok ∧ t = s.raise error info := by
  cases i with
  | init pv =>
    rcases execInit_next h with ⟨_, rfl⟩ | ⟨_, rfl⟩
    · exact .inl ⟨_, State.respond_rsp _ _ _⟩
    · exact .inr ⟨.invalidPrecision, _, by decide, rfl⟩
  | add x =>
    rcases execAdd_next h with ⟨_, rfl⟩ | ⟨_, rfl⟩
    · exact .inl ⟨_, State.respond_rsp _ _ _⟩
    · exact .inr ⟨.notConfigured, _, by decide, rfl⟩
  | est x =>
    rcases execEst_next (x := x) h with ⟨_, rfl⟩ | ⟨_, rfl⟩
    · exact .inl ⟨_, State.respond_rsp _ _ _⟩
    · exact .inr ⟨.notConfigured, _, by decide, rfl⟩
  | rsvd d => exact .inr ⟨.illegalCommand, _, by decide, execRsvd_next (d := d) h⟩

/-- Settles O9: `exec` is total and its port frame is `exec_ports`; by `exec_completes_or_raises` the status is `OK`, or the
state is the one `raise` gives, which writes the response and the command slot only. -/
theorem commandCompletesOrIsRefusedUnchanged : Obligations.CommandCompletesOrIsRefusedUnchanged := by
  unfold Obligations.CommandCompletesOrIsRefusedUnchanged
  intro i s
  obtain ⟨t, ht⟩ := exec_total i s
  obtain ⟨hcmd, -, hpending, htaken⟩ := exec_ports ht
  rcases exec_completes_or_raises ht with ⟨d, hrsp⟩ | ⟨error, info, -, rfl⟩
  · exact ⟨t, .ok, d, ht, hrsp, hcmd, hpending, htaken, fun hne => absurd rfl hne⟩
  · exact ⟨_, error, info, ht, State.raise_rsp _ _ _, hcmd, hpending, htaken, fun _ => rfl⟩

end Sys2Proof.Machine
end

section
/-! PROOFS. The statements of 10_state.md: the invariant, and what a step can write to `CFG`, `P` and `REG`. -/

namespace Sys2Proof.Machine

/-! ### Ranks (40_split_rank.md R83 to R86) -/

/-- The bit that `TZ` finds is 1 (R83). -/
theorem getLsbD_tz {w : Operand} (hw : w ≠ 0#32) : w.getLsbD (tz w) = true := by
  unfold tz
  cases hf : (List.range 32).find? fun i => w.getLsbD i with
  | some i => exact List.find?_some hf
  | none =>
    refine absurd (BitVec.eq_of_getLsbD_eq fun i hi => ?_) hw
    simpa using List.find?_eq_none.1 hf i (List.mem_range.2 hi)

/-- A remainder has `32 - p` bits (R81 (c)). -/
theorem splitRemainder_lt (h : Operand) {p : Nat} (hp : p ≤ 16) : (splitRemainder h p).toNat < 2 ^ (32 - p) := by
  rw [splitRemainder_toNat]
  refine Nat.div_lt_of_lt_mul ?_
  rw [← Nat.pow_add, Nat.add_sub_cancel' (by omega)]
  exact h.isLt

/-- Every rank is at least 1 (R86). -/
theorem one_le_rank (w : Operand) {p : Nat} (hp : p ≤ 16) : 1 ≤ rank w p := by
  by_cases hw : w = 0#32
  · subst hw; rw [rank_zero]; unfold Config.rankMax; omega
  · rw [rank_of_ne_zero hw]; omega

/-- The rank of a hash's remainder is at most `33 - p` (R86). -/
theorem rank_splitRemainder_le (h : Operand) {p : Nat} (hp : p ≤ 16) :
    rank (splitRemainder h p) p ≤ Config.rankMax p := by
  by_cases hw : splitRemainder h p = 0#32
  · rw [hw, rank_zero]
  · rw [rank_of_ne_zero hw]
    have hle : 2 ^ tz (splitRemainder h p) ≤ (splitRemainder h p).toNat := Nat.ge_two_pow_of_testBit (getLsbD_tz hw)
    have hlt : tz (splitRemainder h p) < 32 - p :=
      (Nat.pow_lt_pow_iff_right (by decide)).1 (hle.trans_lt (splitRemainder_lt h hp))
    unfold Config.rankMax
    omega

/-- Every rank fits an entry. -/
theorem rank_splitRemainder_lt (h : Operand) {p : Nat} (hp : p ≤ 16) (hp' : 4 ≤ p) :
    rank (splitRemainder h p) p < 32 := by
  have := rank_splitRemainder_le h hp
  unfold Config.rankMax at this
  omega

/-! ### The bank: reads in numbers, the bound, the live part -/

/-- What a read finds after `UPDATE(j, r)`, as a number, for a rank that fits an entry (R90). -/
theorem Memory.read_update_toNat {m : Memory} (hm : m.wf = true) {r : Nat} (hr : r < 32) (j k : Nat) :
    ((m.update j r).read k).toNat = if k = j then max (m.read j).toNat r else (m.read k).toNat := by
  rw [Memory.read_update hm]
  split
  · rw [BitVec.toNat_ofNat, Nat.mod_eq_of_lt (max_lt (m.read j).isLt hr)]
  · rfl

/-- The bound on the listed live entries is one on what every live register reads (R25 (a)). -/
theorem Memory.bounded_iff {m : Memory} (hm : m.wf = true) (p : Nat) :
    m.bounded p = true ↔ ∀ j, j < 2 ^ p → (m.read j).toNat ≤ Config.rankMax p := by
  simp only [Memory.bounded, Memory.live, List.all_eq_true, List.mem_filter, decide_eq_true_eq, and_imp]
  constructor
  · intro h j hj
    by_cases hu : m.read j = Memory.unlisted
    · rw [hu]; exact Nat.zero_le _
    · exact h (j, m.read j) (Memory.mem_of_read hu) hj
  · rintro h ⟨j, v⟩ hmem hj
    obtain ⟨hread, -, -⟩ := Memory.read_of_mem hm hmem
    exact hread ▸ h j hj

/-- `CLEAR(p)` leaves no live entry that is not 0 (R93). -/
theorem Memory.live_clear (m : Memory) (p : Nat) : Memory.live (m.clear p) p = [] := by
  simp [Memory.live, Memory.clear, List.filter_eq_nil_iff]

/-- Banks with the same live part read the same below `2^p`. -/
theorem Memory.read_eq_of_live_eq {m m' : Memory} {p : Nat} (h : m.live p = m'.live p) {j : Nat} (hj : j < 2 ^ p) :
    m.read j = m'.read j := by
  have hread := congrArg (Memory.read · j) h
  simpa only [Memory.read_live, if_pos hj] using hread

/-- `UPDATE` of a live entry finds and leaves the same live part in two banks that have the same (R23, R90). -/
theorem Memory.live_update_congr {m m' : Memory} (hm : m.wf = true) (hm' : m'.wf = true) {p j : Nat}
    (h : m.live p = m'.live p) (hj : j < 2 ^ p) (hj' : j < 65536) (r : Nat) :
    Memory.live (m.update j r) p = Memory.live (m'.update j r) p := by
  refine Memory.ext_read (Memory.wf_live (Memory.wf_update hm hj')) (Memory.wf_live (Memory.wf_update hm' hj'))
    fun k => ?_
  simp only [Memory.read_live, Memory.read_update hm, Memory.read_update hm', Memory.read_eq_of_live_eq h hj]
  by_cases hk : k < 2 ^ p
  · rw [Memory.read_eq_of_live_eq h hk]
  · rw [if_neg hk, if_neg hk]

/-- The estimate is computed from the live part alone (R23, R120). -/
theorem Memory.estimate_congr {m m' : Memory} {p : Nat} (h : m.live p = m'.live p) : m.estimate p = m'.estimate p := by
  simp only [Memory.estimate, Memory.harmonicSum, Memory.countZero, h]

/-! ### Commands -/

/-- A valid precision, in numbers (R100). -/
theorem validPrecision_iff {pv : Operand} : validPrecision pv = true ↔ 4 ≤ pv.toNat ∧ pv.toNat ≤ 16 := by
  simp [validPrecision]

/-- `P` holds the whole of a valid precision (R21, R100). -/
theorem toNat_extractLsb'_of_validPrecision {pv : Operand} (h : validPrecision pv = true) :
    (pv.extractLsb' 0 5).toNat = pv.toNat := by
  obtain ⟨-, hle⟩ := validPrecision_iff.1 h
  rw [BitVec.extractLsb'_toNat, Nat.shiftRight_zero, Nat.mod_eq_of_lt (by omega)]

/-- The words that begin a lifetime are those of the valid `INIT`s (R12). -/
theorem startsLifetime_iff {w : CmdWord} :
    startsLifetime w = true ↔ ∃ pv, decode w = .init pv ∧ validPrecision pv = true := by
  unfold startsLifetime
  cases decode w <;> simp

/-- The decoder reads the word of a command as that command (R63, R65). -/
theorem decode_encode (i : Instr) : decode (encode i) = i := by
  obtain ⟨hop, hdata⟩ : opField (encode i) = i.opcode ∧ dataField (encode i) = i.operand :=
    Laws.EncodedFields.fields_of_append _ _
  cases i <;> simp [decode, hop, hdata, Instr.opcode, Instr.operand]

/-! ### What each command answers, by the condition it decides on -/

theorem exec_init_of_valid {pv : Operand} (hv : validPrecision pv = true) (s : State) :
    exec (.init pv) s = .next ((s.configure pv).respond .ok 0#33) :=
  if_pos hv

theorem exec_init_of_invalid {pv : Operand} (hv : validPrecision pv = false) (s : State) :
    exec (.init pv) s = .next (s.raise .invalidPrecision (pv.setWidth 33)) :=
  if_neg (by simp [hv])

theorem exec_add_of_configured (h : Operand) {s : State} (hc : s.cfg = true) :
    exec (.add h) s =
      .next ((s.update (splitIndex h s.p.toNat) (rank (splitRemainder h s.p.toNat) s.p.toNat)).respond .ok 0#33) :=
  if_pos hc

theorem exec_add_of_unconfigured (h : Operand) {s : State} (hc : s.cfg = false) :
    exec (.add h) s = .next (s.raise .notConfigured 0#33) :=
  if_neg (by simp [hc])

theorem exec_est_of_configured (x : Operand) {s : State} (hc : s.cfg = true) :
    exec (.est x) s = .next (s.respond .ok (BitVec.ofNat 33 (s.reg.estimate s.p.toNat))) :=
  if_pos hc

theorem exec_est_of_unconfigured (x : Operand) {s : State} (hc : s.cfg = false) :
    exec (.est x) s = .next (s.raise .notConfigured 0#33) :=
  if_neg (by simp [hc])

theorem exec_rsvd (d : Operand) (s : State) : exec (.rsvd d) s = .next (s.raise .illegalCommand 0#33) := rfl

/-! ### What the step does next, by what is in the block (R28, R62) -/

theorem step_of_response {s : State} {r : RspWord} (hr : s.rsp = some r) : step s = .next s.deliver := by
  simp [step, transact, hr]

theorem step_of_command {s : State} {w : CmdWord} (hr : s.rsp = none) (hc : s.cmd = some w) : step s = complete w s := by
  simp [step, transact, hr, hc]

theorem step_of_pending {s : State} {a : HostAction} {rest : List HostAction} (hr : s.rsp = none) (hc : s.cmd = none)
    (hp : s.pending = a :: rest) : step s = act a (s.withPending rest) := by
  simp [step, transact, hr, hc, hp]

theorem step_of_nothing {s : State} (hr : s.rsp = none) (hc : s.cmd = none) (hp : s.pending = []) : step s = .next s := by
  simp [step, transact, hr, hc, hp]

/-- Settles O7: with nothing in the block and no action pending, the step has nothing to do. -/
theorem blockWithoutCommandWaits : Obligations.BlockWithoutCommandWaits := by
  unfold Obligations.BlockWithoutCommandWaits
  intro s hc hr hp
  exact step_of_nothing hr hc hp

/-! ### What a command and a step write -/

/-- What the command `i`, carried out in `s`, writes to `CFG`, `P` and `REG` on the way to `t`: a valid `INIT` all three
(R100), an `ADD` of a configured block one entry (R110), every other command nothing. -/
def Writes (i : Instr) (s t : State) : Prop :=
  (∃ pv, i = .init pv ∧ validPrecision pv = true ∧
    t.cfg = true ∧ t.p = pv.extractLsb' 0 5 ∧ t.reg = s.reg.clear pv.toNat) ∨
  (∃ h, i = .add h ∧ s.cfg = true ∧ t.cfg = s.cfg ∧ t.p = s.p ∧
    t.reg = s.reg.update (splitIndex h s.p.toNat).toNat (rank (splitRemainder h s.p.toNat) s.p.toNat)) ∨
  ((∀ pv, i = .init pv → validPrecision pv = false) ∧ (∀ h, i = .add h → s.cfg = false) ∧
    t.cfg = s.cfg ∧ t.p = s.p ∧ t.reg = s.reg)

/-- Every command writes what `Writes` says. -/
theorem exec_writes {i : Instr} {s t : State} (h : exec i s = .next t) : Writes i s t := by
  unfold Writes
  cases i with
  | init pv => rcases execInit_next h with ⟨hv, rfl⟩ | ⟨hv, rfl⟩ <;> simp [hv]
  | add x => rcases execAdd_next h with ⟨hc, rfl⟩ | ⟨hc, rfl⟩ <;> simp [hc]
  | est x => rcases execEst_next (x := x) h with ⟨-, rfl⟩ | ⟨-, rfl⟩ <;> simp
  | rsvd d => cases execRsvd_next (d := d) h; simp

/-- Everything a step can do to `CFG`, `P` and `REG`: nothing, as it carries no action out (it waits or delivers); what a
command writes; `CFG <- 0` alone, by a reset or a command abandoned before it ran; or what a command writes and then
`CFG <- 0`, by one abandoned after it ran. -/
theorem step_writes {s t : State} (h : step s = .next t) :
    (s.nextAction = none ∧ t.cfg = s.cfg ∧ t.p = s.p ∧ t.reg = s.reg) ∨
    (∃ w, s.nextAction = some (.command w) ∧ Writes (decode w) s t) ∨
    (∃ a, s.nextAction = some a ∧ (a = .reset ∨ ∃ w, a = .abandoned w false) ∧
      t.cfg = false ∧ t.p = s.p ∧ t.reg = s.reg) ∨
    (∃ w u, s.nextAction = some (.abandoned w true) ∧ Writes (decode w) s u ∧
      t.cfg = false ∧ t.p = u.p ∧ t.reg = u.reg) := by
  rcases step_cases s with ⟨hr, hs⟩ | ⟨hr, w, u, hc, he, hs⟩ | ⟨hr, hc, w, rest, u, hp, he, hs⟩ | ⟨hr, hc, rest, hp, hs⟩ |
    ⟨hr, hc, w, rest, hp, hs⟩ | ⟨hr, hc, w, rest, u, hp, he, hs⟩ | ⟨hr, hc, hp, hs⟩ <;>
    cases hs.symm.trans h
  · obtain ⟨r, hr⟩ := Option.ne_none_iff_exists'.1 hr
    exact .inl ⟨by simp [State.nextAction, hr], by simp⟩
  · exact .inr (.inl ⟨w, by simp [State.nextAction, hr, hc], by simpa [Writes] using exec_writes he⟩)
  · exact .inr (.inl ⟨w, by simp [State.nextAction, hr, hc, hp], by simpa [Writes] using exec_writes he⟩)
  · exact .inr (.inr (.inl ⟨.reset, by simp [State.nextAction, hr, hc, hp], .inl rfl, by simp⟩))
  · exact .inr (.inr (.inl ⟨_, by simp [State.nextAction, hr, hc, hp], .inr ⟨w, rfl⟩, by simp⟩))
  · have hw : Writes (decode w) s u := by simpa [Writes] using exec_writes he
    exact .inr (.inr (.inr ⟨w, u, by simp [State.nextAction, hr, hc, hp], hw, by simp⟩))
  · exact .inl ⟨by simp [State.nextAction, hr, hc, hp], rfl, rfl, rfl⟩

/-! ### The invariant (R21, R25) -/

/-- What a command writes keeps the invariant: `INIT` leaves no live entry, and `ADD` raises a live entry to a rank. -/
theorem Writes.inv {i : Instr} {s t : State} (h : Writes i s t) (hs : s.Inv) : t.Inv := by
  obtain ⟨hwf, hcfg⟩ := hs
  rcases h with ⟨pv, -, hv, -, hp, hreg⟩ | ⟨x, -, hc, -, hp, hreg⟩ | ⟨-, -, hc, hp, hreg⟩
  · obtain ⟨h4, h16⟩ := validPrecision_iff.1 hv
    have hpv : t.p.toNat = pv.toNat := by rw [hp, toNat_extractLsb'_of_validPrecision hv]
    refine ⟨hreg ▸ Memory.wf_clear hwf, fun _ => ?_⟩
    rw [hpv, hreg, Memory.bounded, Memory.live_clear]
    exact ⟨h4, h16, rfl⟩
  · obtain ⟨h4, h16, hb⟩ := hcfg hc
    have hr := rank_splitRemainder_le x h16
    have hwf' := Memory.wf_update (r := rank (splitRemainder x s.p.toNat) s.p.toNat) hwf (splitIndex x s.p.toNat).isLt
    refine ⟨hreg ▸ hwf', fun _ => ?_⟩
    rw [hp, hreg]
    refine ⟨h4, h16, (Memory.bounded_iff hwf' _).2 fun j hj => ?_⟩
    rw [Memory.bounded_iff hwf] at hb
    rw [Memory.read_update_toNat hwf (rank_splitRemainder_lt x h16 h4)]
    split
    · exact max_le (hb _ (splitIndex_lt x h16)) hr
    · exact hb j hj
  · exact ⟨hreg ▸ hwf, by rwa [hc, hp, hreg]⟩

theorem exec_inv {i : Instr} {s t : State} (h : exec i s = .next t) (hs : s.Inv) : t.Inv :=
  (exec_writes h).inv hs

/-- A state with `CFG = 0` meets the invariant if its bank is in canonical form. -/
theorem State.inv_of_unconfigured {s : State} (hc : s.cfg = false) (hwf : s.reg.wf = true) : s.Inv :=
  ⟨hwf, fun h => absurd (hc.symm.trans h) (by decide)⟩

theorem step_inv {s t : State} (h : step s = .next t) (hs : s.Inv) : t.Inv := by
  obtain ⟨hwf, hcfg⟩ := hs
  rcases step_writes h with ⟨-, hc, hp, hreg⟩ | ⟨w, -, hw⟩ | ⟨a, -, -, hc, -, hreg⟩ | ⟨w, u, -, hw, hc, -, hreg⟩
  · exact ⟨hreg ▸ hwf, by rwa [hc, hp, hreg]⟩
  · exact hw.inv ⟨hwf, hcfg⟩
  · exact State.inv_of_unconfigured hc (hreg ▸ hwf)
  · obtain ⟨hwf', -⟩ := hw.inv ⟨hwf, hcfg⟩
    exact State.inv_of_unconfigured hc (hreg ▸ hwf')

/-- Settles O41: by `step_writes` a step writes nothing, what a command writes, or `CFG <- 0`, and each keeps the
invariant. -/
theorem stepKeepsTheInvariant : Obligations.StepKeepsTheInvariant := by
  unfold Obligations.StepKeepsTheInvariant
  intro s t hs h
  exact step_inv h hs

/-- Settles O42: `CFG = 0` after reset, and the bank that lists nothing is in canonical form. -/
theorem invariantHoldsAfterReset : Obligations.InvariantHoldsAfterReset :=
  State.inv_of_unconfigured State.reset_cfg Memory.wf_reset

/-! ### Who writes `P` and `CFG`, and what a lifetime keeps (R20, R21, R25) -/

/-- A command that begins no lifetime keeps `CFG` and `P`, and lowers no entry (R20, R21, R25). -/
theorem Writes.keeps_lifetime {w : CmdWord} {s t : State} (h : Writes (decode w) s t)
    (hw : startsLifetime w = false) :
    t.cfg = s.cfg ∧ t.p = s.p ∧ (s.Inv → ∀ j, (s.reg.read j).toNat ≤ (t.reg.read j).toNat) := by
  rcases h with ⟨pv, hd, hv, -⟩ | ⟨x, -, hc, hct, hp, hreg⟩ | ⟨-, -, hc, hp, hreg⟩
  · exact absurd (startsLifetime_iff.2 ⟨pv, hd, hv⟩) (by simp [hw])
  · refine ⟨hct, hp, fun ⟨hwf, hcfg⟩ j => ?_⟩
    obtain ⟨h4, h16, -⟩ := hcfg hc
    rw [hreg, Memory.read_update_toNat hwf (rank_splitRemainder_lt x h16 h4)]
    split
    · subst j; exact le_max_left _ _
    · exact le_rfl
  · exact ⟨hc, hp, fun _ j => hreg ▸ le_rfl⟩

/-- A command begins a lifetime, or keeps `CFG` and `P` (R20, R21). -/
theorem Writes.keeps_or_starts {w : CmdWord} {s t : State} (h : Writes (decode w) s t) :
    startsLifetime w = true ∨ (t.cfg = s.cfg ∧ t.p = s.p) := by
  cases hw : startsLifetime w with
  | true => exact .inl rfl
  | false =>
    obtain ⟨hc, hp, -⟩ := h.keeps_lifetime hw
    exact .inr ⟨hc, hp⟩

/-- No command clears `CFG` (R20). -/
theorem Writes.cfg_of_cfg {i : Instr} {s t : State} (h : Writes i s t) (hs : s.cfg = true) : t.cfg = true := by
  rcases h with ⟨pv, -, -, hc, -⟩ | ⟨x, -, -, hc, -⟩ | ⟨-, -, hc, -⟩
  · exact hc
  · exact hc.trans hs
  · exact hc.trans hs

/-- Settles O43: the bounds are the invariant's, read by read; of what a step can do, only a command that begins a
lifetime writes `P`. -/
theorem onlyAValidInitWritesThePrecision : Obligations.OnlyAValidInitWritesThePrecision := by
  unfold Obligations.OnlyAValidInitWritesThePrecision
  constructor
  · rintro s ⟨hwf, hcfg⟩ hc
    obtain ⟨h4, h16, hb⟩ := hcfg hc
    exact ⟨h4, h16, (Memory.bounded_iff hwf _).1 hb⟩
  · intro s t h
    rcases step_writes h with ⟨-, -, hp, -⟩ | ⟨w, ha, hw⟩ | ⟨a, -, -, -, hp, -⟩ | ⟨w, u, ha, hw, -, hp, -⟩
    · exact .inl hp
    · exact hw.keeps_or_starts.elim (fun hst => .inr ⟨w, hst, .inl ha⟩) fun ⟨_, hp⟩ => .inl hp
    · exact .inl hp
    · exact hw.keeps_or_starts.elim (fun hst => .inr ⟨w, hst, .inr ha⟩) fun ⟨_, hpu⟩ => .inl (hp.trans hpu)

/-- Settles O44: a step whose action does not end the lifetime writes nothing, or what a command that begins no lifetime
writes. -/
theorem registersNeverDecreaseInALifetime : Obligations.RegistersNeverDecreaseInALifetime := by
  unfold Obligations.RegistersNeverDecreaseInALifetime
  intro s t hs h hlife
  rcases step_writes h with ⟨-, hc, hp, hreg⟩ | ⟨w, ha, hw⟩ | ⟨a, ha, rfl | ⟨w, rfl⟩, -⟩ | ⟨w, u, ha, -⟩
  · exact ⟨hc, hp, fun j => hreg ▸ le_rfl⟩
  · obtain ⟨hc, hp, hread⟩ := hw.keeps_lifetime (hlife _ ha)
    exact ⟨hc, hp, hread hs⟩
  all_goals exact absurd (hlife _ ha) (by simp [HostAction.endsLifetime])

/-- Settles O45: a command leaves `CFG` as it was unless it begins a lifetime, and then sets it; every other action that
writes `CFG` clears it, and is a reset or a command abandoned by one. -/
theorem onlyInitSetsAndOnlyResetClearsCfg : Obligations.OnlyInitSetsAndOnlyResetClearsCfg := by
  unfold Obligations.OnlyInitSetsAndOnlyResetClearsCfg
  intro s t h
  rcases step_writes h with ⟨-, hc, -⟩ | ⟨w, ha, hw⟩ | ⟨a, ha, hkind, hc, -⟩ | ⟨w, u, ha, -, hc, -⟩
  · simp +contextual [hc]
  · constructor
    · intro hs ht
      refine ⟨w, ha, hw.keeps_or_starts.resolve_right fun ⟨hc, _⟩ => ?_⟩
      simp [hc, hs] at ht
    · intro hs ht
      exact absurd (hw.cfg_of_cfg hs) (by simp [ht])
  · refine ⟨fun _ ht => absurd ht (by simp [hc]), fun _ _ => ?_⟩
    rcases hkind with rfl | ⟨w, rfl⟩
    · exact .inl ha
    · exact .inr ⟨w, false, ha⟩
  · exact ⟨fun _ ht => absurd ht (by simp [hc]), fun _ _ => .inr ⟨w, true, ha⟩⟩

/-! ### The registers of a lifetime (R24) -/

/-- The greatest rank, at precision `p`, of the hashes whose index is `j`; 0 if there is none (R24). -/
def greatestRank (hs : List Operand) (p j : Nat) : Nat :=
  ((hs.filter fun h => (splitIndex h p).toNat = j).map fun h => rank (splitRemainder h p) p).foldr max 0

@[simp] theorem greatestRank_nil (p j : Nat) : greatestRank [] p j = 0 := rfl

theorem greatestRank_cons (h : Operand) (hs : List Operand) (p j : Nat) :
    greatestRank (h :: hs) p j =
      if (splitIndex h p).toNat = j then max (rank (splitRemainder h p) p) (greatestRank hs p j)
      else greatestRank hs p j := by
  by_cases hj : (splitIndex h p).toNat = j <;> simp [greatestRank, hj]

/-- Ranks are at least 1, so the greatest is 0 exactly if there is none. -/
theorem greatestRank_eq_zero_iff {p : Nat} (hp : p ≤ 16) (hs : List Operand) (j : Nat) :
    greatestRank hs p j = 0 ↔ ∀ h ∈ hs, (splitIndex h p).toNat ≠ j := by
  induction hs with
  | nil => simp
  | cons h hs ih =>
    have hrank := one_le_rank (splitRemainder h p) hp
    rw [greatestRank_cons, List.forall_mem_cons, ← ih]
    split
    · simp only [*, ne_eq, not_true_eq_false, false_and, iff_false]; omega
    · simp [*]

theorem addedHashes_cons_of_add {w : CmdWord} {h : Operand} (hw : decode w = .add h) (ws : List CmdWord) :
    addedHashes (w :: ws) = h :: addedHashes ws := by
  simp [addedHashes, hw]

theorem addedHashes_cons_of_not_add {w : CmdWord} (hw : ∀ h, decode w ≠ .add h) (ws : List CmdWord) :
    addedHashes (w :: ws) = addedHashes ws := by
  unfold addedHashes
  cases hd : decode w with
  | add h => exact absurd hd (hw h)
  | init pv => simp [hd]
  | est x => simp [hd]
  | rsvd d => simp [hd]

/-- Serving one command more: what it writes, and then the rest from the state it leaves (R62). -/
theorem serve_cons (w : CmdWord) (ws : List CmdWord) (s : State) :
    ∃ t, Writes (decode w) s t ∧ serve (w :: ws) s = serve ws t := by
  obtain ⟨t, he, hc⟩ := complete_total w (s.accept w)
  exact ⟨t.deliver, by simpa [Writes] using exec_writes he, by simp [serve, hc]⟩

/-- A command of a configured block that begins no lifetime raises each live register to the rank of the hash it adds
there. -/
theorem Writes.read_live {w : CmdWord} {s t : State} (h : Writes (decode w) s t) (hs : s.Inv) (hc : s.cfg = true)
    (hw : startsLifetime w = false) (ws : List CmdWord) (j : Nat) :
    max (t.reg.read j).toNat (greatestRank (addedHashes ws) s.p.toNat j) =
      max (s.reg.read j).toNat (greatestRank (addedHashes (w :: ws)) s.p.toNat j) := by
  obtain ⟨hwf, hcfg⟩ := hs
  obtain ⟨h4, h16, -⟩ := hcfg hc
  rcases h with ⟨pv, hd, hv, -⟩ | ⟨x, hd, -, -, -, hreg⟩ | ⟨-, hadd, -, -, hreg⟩
  · exact absurd (startsLifetime_iff.2 ⟨pv, hd, hv⟩) (by simp [hw])
  · rw [hreg, Memory.read_update_toNat hwf (rank_splitRemainder_lt x h16 h4), addedHashes_cons_of_add hd,
      greatestRank_cons]
    by_cases hj : (splitIndex x s.p.toNat).toNat = j
    · subst j; rw [if_pos rfl, if_pos rfl, max_assoc]
    · rw [if_neg (Ne.symm hj), if_neg hj]
  · have hne : ∀ x, decode w ≠ .add x := fun x hd => by simp [hadd x hd] at hc
    rw [hreg, addedHashes_cons_of_not_add hne]

/-- Within a lifetime each live register holds the maximum of what it held and the greatest rank added there (R24). -/
theorem serve_lifetime (ws : List CmdWord) (s : State) (hs : s.Inv) (hc : s.cfg = true)
    (hws : ∀ w ∈ ws, startsLifetime w = false) :
    (serve ws s).cfg = true ∧ (serve ws s).p = s.p ∧ ∀ j, ((serve ws s).reg.read j).toNat =
      max (s.reg.read j).toNat (greatestRank (addedHashes ws) s.p.toNat j) := by
  induction ws generalizing s with
  | nil => exact ⟨hc, rfl, fun j => (Nat.max_zero _).symm⟩
  | cons w ws ih =>
    obtain ⟨hw, hws⟩ := List.forall_mem_cons.1 hws
    obtain ⟨t, hwr, ht⟩ := serve_cons w ws s
    obtain ⟨hct, hpt, -⟩ := hwr.keeps_lifetime hw
    obtain ⟨hcu, hpu, hread⟩ := ih t (hwr.inv hs) (hct.trans hc) hws
    rw [ht]
    refine ⟨hcu, hpu.trans hpt, fun j => ?_⟩
    rw [hread, hpt, hwr.read_live hs hc hw]

/-- Settles O24: a valid `INIT` leaves every live register 0, and `serve_lifetime` says what the rest of the lifetime makes
of it. -/
theorem registerIsTheGreatestRankOfItsLifetime : Obligations.RegisterIsTheGreatestRankOfItsLifetime := by
  unfold Obligations.RegisterIsTheGreatestRankOfItsLifetime
  rintro pv ws s u j hs h4 h16 hws rfl hj
  have hv : validPrecision pv = true := validPrecision_iff.2 ⟨h4, h16⟩
  obtain ⟨t, hwr, ht⟩ := serve_cons (encode (.init pv)) ws s
  rw [decode_encode] at hwr
  have hinv : t.Inv := hwr.inv hs
  obtain ⟨hc, hp, hreg⟩ : t.cfg = true ∧ t.p = pv.extractLsb' 0 5 ∧ t.reg = s.reg.clear pv.toNat := by
    simpa [Writes, hv] using hwr
  obtain ⟨hcu, hpu, hread⟩ := serve_lifetime ws t hinv hc hws
  have hpt : t.p.toNat = pv.toNat := by rw [hp, toNat_extractLsb'_of_validPrecision hv]
  have hj0 : (t.reg.read j).toNat = 0 := by rw [hreg, Memory.read_clear, if_neg (by omega)]; rfl
  have hmax : ((serve ws t).reg.read j).toNat = greatestRank (addedHashes ws) pv.toNat j := by
    rw [hread, hj0, hpt, Nat.zero_max]
  rw [ht]
  refine ⟨hcu, by rw [hpu, hpt], hmax, ?_⟩
  rw [← greatestRank_eq_zero_iff h16, ← hmax, BitVec.toNat_eq]
  rfl

/-! ### The architectural state decides (R31) -/

/-- Two states have the same architectural state if both are unconfigured, or both configured with the same precision and
live registers. -/
theorem State.arch_eq_iff {s t : State} : s.arch = t.arch ↔
    s.cfg = t.cfg ∧ (s.cfg = true → s.p = t.p ∧ s.reg.live s.p.toNat = t.reg.live t.p.toNat) := by
  unfold State.arch
  cases s.cfg <;> cases t.cfg <;> simp

/-- The architectural state is a function of `CFG`, `P` and `REG`. -/
theorem State.arch_congr {s t : State} (hc : s.cfg = t.cfg) (hp : s.p = t.p) (hreg : s.reg = t.reg) :
    s.arch = t.arch := by
  unfold State.arch
  rw [hc, hp, hreg]

theorem State.arch_of_unconfigured {s : State} (hc : s.cfg = false) : s.arch = none := by
  simp [State.arch, hc]

/-- Taking an error leaves the architectural state (R149). -/
@[simp] theorem State.arch_raise (s : State) (error : Status) (info : Result) : (s.raise error info).arch = s.arch := rfl

/-- A valid `INIT` leaves an estimator that its operand alone decides (R104). -/
theorem State.arch_configure {pv : Operand} (hv : validPrecision pv = true) (s : State) (st : Status) (d : Result) :
    ((s.configure pv).respond st d).arch = some (pv.extractLsb' 0 5, []) := by
  simp [State.arch, toNat_extractLsb'_of_validPrecision hv, Memory.live_clear]

/-- A command in two states with the same architectural state answers the same and leaves the same (R31). -/
theorem exec_arch (i : Instr) {s t : State} (hs : s.Inv) (ht : t.Inv) (h : s.arch = t.arch) :
    ∃ s' t', exec i s = .next s' ∧ exec i t = .next t' ∧ s'.rsp = t'.rsp ∧ s'.arch = t'.arch := by
  obtain ⟨hcfg, hest⟩ := State.arch_eq_iff.1 h
  cases i with
  | init pv =>
    cases hv : validPrecision pv with
    | true =>
      exact ⟨_, _, exec_init_of_valid hv s, exec_init_of_valid hv t, rfl, by
        rw [State.arch_configure hv, State.arch_configure hv]⟩
    | false => exact ⟨_, _, exec_init_of_invalid hv s, exec_init_of_invalid hv t, rfl, h⟩
  | add x =>
    cases hc : s.cfg with
    | true =>
      obtain ⟨hp, hlive⟩ := hest hc
      obtain ⟨hwf, hb⟩ := hs
      obtain ⟨hwf', -⟩ := ht
      obtain ⟨-, h16, -⟩ := hb hc
      refine ⟨_, _, exec_add_of_configured x hc, exec_add_of_configured x (hcfg.symm.trans hc), rfl, ?_⟩
      rw [← hp] at hlive ⊢
      refine State.arch_eq_iff.2 ⟨hcfg, fun _ => ⟨hp, ?_⟩⟩
      simp only [State.respond_p, State.update_p, State.respond_reg, State.update_reg, ← hp]
      exact Memory.live_update_congr hwf hwf' hlive (splitIndex_lt x h16) (splitIndex x s.p.toNat).isLt _
    | false =>
      exact ⟨_, _, exec_add_of_unconfigured x hc, exec_add_of_unconfigured x (hcfg.symm.trans hc), rfl, h⟩
  | est x =>
    cases hc : s.cfg with
    | true =>
      obtain ⟨hp, hlive⟩ := hest hc
      rw [← hp] at hlive
      refine ⟨_, _, exec_est_of_configured x hc, exec_est_of_configured x (hcfg.symm.trans hc), ?_, h⟩
      simp only [State.respond_rsp, ← hp, Memory.estimate_congr hlive]
    | false =>
      exact ⟨_, _, exec_est_of_unconfigured x hc, exec_est_of_unconfigured x (hcfg.symm.trans hc), rfl, h⟩
  | rsvd d => exact ⟨_, _, exec_rsvd d s, exec_rsvd d t, rfl, h⟩

/-- Two states that no traffic at the ports can tell apart: both meet the invariant, they have the same architectural state
and the same ports (R31, R32). -/
structure Agree (s t : State) : Prop where
  inv_left : s.Inv
  inv_right : t.Inv
  arch : s.arch = t.arch
  cmd : s.cmd = t.cmd
  rsp : s.rsp = t.rsp
  pending : s.pending = t.pending
  taken : s.taken = t.taken

/-- Both outcomes are next states, and no traffic can tell them apart. -/
def AgreeNext (o o' : Host.Outcome State Fault Refusal) : Prop :=
  ∃ s' t', o = .next s' ∧ o' = .next t' ∧ Agree s' t'

/-- What changes the ports alone, and in the same way, keeps the agreement. -/
theorem Agree.of_ports {s t s' t' : State} (h : Agree s t) (hs : s'.cfg = s.cfg ∧ s'.p = s.p ∧ s'.reg = s.reg)
    (ht : t'.cfg = t.cfg ∧ t'.p = t.p ∧ t'.reg = t.reg) (hcmd : s'.cmd = t'.cmd) (hrsp : s'.rsp = t'.rsp)
    (hpending : s'.pending = t'.pending) (htaken : s'.taken = t'.taken) : Agree s' t' := by
  obtain ⟨hsc, hsp, hsr⟩ := hs
  obtain ⟨htc, htp, htr⟩ := ht
  refine ⟨?_, ?_, ?_, hcmd, hrsp, hpending, htaken⟩
  · rw [State.Inv, hsc, hsp, hsr]; exact h.inv_left
  · rw [State.Inv, htc, htp, htr]; exact h.inv_right
  · rw [State.arch_congr hsc hsp hsr, State.arch_congr htc htp htr]; exact h.arch

theorem Agree.deliver {s t : State} (h : Agree s t) : Agree s.deliver t.deliver :=
  h.of_ports (by simp) (by simp) (by simp [h.cmd]) (by simp) (by simp [h.pending]) (by simp [h.taken, h.rsp])

theorem Agree.accept {s t : State} (h : Agree s t) (w : CmdWord) : Agree (s.accept w) (t.accept w) :=
  h.of_ports (by simp) (by simp) rfl h.rsp h.pending h.taken

theorem Agree.withPending {s t : State} (h : Agree s t) (rest : List HostAction) :
    Agree (s.withPending rest) (t.withPending rest) :=
  h.of_ports (by simp) (by simp) h.cmd h.rsp rfl h.taken

/-- A reset leaves no estimator on either side, whatever `P` and the bank were (R32, R170). -/
theorem Agree.resetEdge {s t : State} (h : Agree s t) : Agree s.resetEdge t.resetEdge where
  inv_left := State.inv_of_unconfigured rfl h.inv_left.1
  inv_right := State.inv_of_unconfigured rfl h.inv_right.1
  arch := rfl
  cmd := rfl
  rsp := rfl
  pending := h.pending
  taken := h.taken

theorem Agree.exec {s t : State} (h : Agree s t) (i : Instr) : AgreeNext (exec i s) (exec i t) := by
  obtain ⟨s', t', hs, ht, hrsp, harch⟩ := exec_arch i h.inv_left h.inv_right h.arch
  obtain ⟨hsc, -, hsp, hst⟩ := exec_ports hs
  obtain ⟨htc, -, htp, htt⟩ := exec_ports ht
  exact ⟨s', t', hs, ht, exec_inv hs h.inv_left, exec_inv ht h.inv_right, harch, hsc.trans htc.symm, hrsp,
    by rw [hsp, htp, h.pending], by rw [hst, htt, h.taken]⟩

theorem Agree.complete {s t : State} (h : Agree s t) (w : CmdWord) : AgreeNext (complete w s) (complete w t) := by
  obtain ⟨s', t', hs, ht, h'⟩ := h.exec (decode w)
  exact ⟨_, _, by simp [Machine.complete, hs], by simp [Machine.complete, ht], h'.deliver⟩

theorem Agree.abandon {s t : State} (h : Agree s t) (w : CmdWord) (ran : Bool) :
    AgreeNext (abandon w ran s) (abandon w ran t) := by
  cases ran with
  | false => exact ⟨_, _, rfl, rfl, h.resetEdge⟩
  | true =>
    obtain ⟨s', t', hs, ht, h'⟩ := h.exec (decode w)
    exact ⟨_, _, by simp [Machine.abandon, hs], by simp [Machine.abandon, ht], h'.resetEdge⟩

theorem Agree.act {s t : State} (h : Agree s t) (a : HostAction) : AgreeNext (act a s) (act a t) := by
  cases a with
  | command w => exact (h.accept w).complete w
  | reset => exact ⟨_, _, rfl, rfl, h.resetEdge⟩
  | abandoned w ran => exact (h.accept w).abandon w ran

/-- A step keeps the agreement: both states have the same at the ports to do next. -/
theorem Agree.step {s t : State} (h : Agree s t) : AgreeNext (step s) (step t) := by
  cases hr : s.rsp with
  | some r => exact ⟨_, _, step_of_response hr, step_of_response (h.rsp ▸ hr), h.deliver⟩
  | none =>
    have hr' : t.rsp = none := h.rsp ▸ hr
    cases hc : s.cmd with
    | some w =>
      rw [step_of_command hr hc, step_of_command hr' (h.cmd ▸ hc)]
      exact h.complete w
    | none =>
      have hc' : t.cmd = none := h.cmd ▸ hc
      cases hp : s.pending with
      | cons a rest =>
        rw [step_of_pending hr hc hp, step_of_pending hr' hc' (h.pending ▸ hp)]
        exact (h.withPending rest).act a
      | nil => exact ⟨_, _, step_of_nothing hr hc hp, step_of_nothing hr' hc' (h.pending ▸ hp), h⟩

theorem run_succ {s t : State} (h : step s = .next t) (n : Nat) :
    Sys2Proof.core.run (n + 1) s = Sys2Proof.core.run n t := by
  have hcore : Sys2Proof.core.step s = .next t := h
  simp only [Host.Core.run, hcore]

theorem Agree.run (n : Nat) {s t : State} (h : Agree s t) :
    AgreeNext (Sys2Proof.core.run n s) (Sys2Proof.core.run n t) := by
  induction n generalizing s t with
  | zero => exact ⟨s, t, rfl, rfl, h⟩
  | succ n ih =>
    obtain ⟨s', t', hs, ht, h'⟩ := h.step
    rw [run_succ hs, run_succ ht]
    exact ih h'

/-- Settles O48: every step keeps `Agree`, which holds the responses delivered and the architectural state. -/
theorem architecturalStateDecidesEveryResponse : Obligations.ArchitecturalStateDecidesEveryResponse := by
  unfold Obligations.ArchitecturalStateDecidesEveryResponse
  intro n s t hs ht harch hcmd hrsp hpending htaken
  have h : Agree s t := ⟨hs, ht, harch, hcmd, hrsp, hpending, htaken⟩
  obtain ⟨s', t', hs', ht', h'⟩ := h.run n
  exact ⟨s', t', hs', ht', h'.taken, h'.arch⟩

end Sys2Proof.Machine
end

section
/-! PROOFS. The statements of 20_memory.md: the responses come in command order. -/

namespace Sys2Proof.Machine

/-! ### No command sees the responses delivered before it -/

/-- The state `s` with `l` for the responses delivered so far (log 1). -/
def State.withTaken (l : List RspWord) (s : State) : State :=
  { s with taken := l }

@[simp] theorem State.withTaken_taken (l : List RspWord) (s : State) : (s.withTaken l).taken = l := rfl

@[simp] theorem State.withTaken_withTaken (l l' : List RspWord) (s : State) :
    (s.withTaken l).withTaken l' = s.withTaken l' := rfl

/-- Each arm of `exec` leaves `taken` alone and decides on nothing that is in it. -/
theorem exec_withTaken {i : Instr} {s t : State} (h : exec i s = .next t) (l : List RspWord) :
    exec i (s.withTaken l) = .next (t.withTaken l) := by
  cases i with
  | init pv =>
    rcases execInit_next h with ⟨hv, rfl⟩ | ⟨hv, rfl⟩
    · exact exec_init_of_valid hv _
    · exact exec_init_of_invalid hv _
  | add x =>
    rcases execAdd_next h with ⟨hc, rfl⟩ | ⟨hc, rfl⟩
    · exact exec_add_of_configured x hc
    · exact exec_add_of_unconfigured x hc
  | est x =>
    rcases execEst_next (x := x) h with ⟨hc, rfl⟩ | ⟨hc, rfl⟩
    · exact exec_est_of_configured x hc
    · exact exec_est_of_unconfigured x hc
  | rsvd d => cases execRsvd_next (d := d) h; exact exec_rsvd d _

/-- The delivery of a response appends it to those delivered before (R61). -/
theorem State.deliver_withTaken {t : State} {r : RspWord} (hr : t.rsp = some r) (l : List RspWord) :
    (t.withTaken l).deliver = t.deliver.withTaken (l ++ [r]) := by
  simp [State.deliver, State.withTaken, hr]

/-- A command has one response and one state it leaves, whatever was delivered before it and follows it (R50 (a)). -/
theorem serve_cons_withTaken (w : CmdWord) (s : State) :
    ∃ (r : RspWord) (u : State), ∀ ws l, serve (w :: ws) (s.withTaken l) = serve ws (u.withTaken (l ++ [r])) := by
  obtain ⟨t, he, -⟩ := complete_total w (s.accept w)
  obtain ⟨-, hrsp, -⟩ := exec_ports he
  obtain ⟨r, hr⟩ := Option.isSome_iff_exists.1 hrsp
  refine ⟨r, t.deliver, fun ws l => ?_⟩
  have hel : exec (decode w) ((s.withTaken l).accept w) = .next (t.withTaken l) := exec_withTaken he l
  simp only [serve, complete, hel, State.deliver_withTaken hr]

/-! ### The responses of a sequence -/

/-- What was delivered before a sequence stands before its responses and changes nothing else. -/
theorem serve_withTaken (ws : List CmdWord) (s : State) (l : List RspWord) :
    serve ws (s.withTaken l) = (serve ws s).withTaken (l ++ replies ws s) := by
  induction ws generalizing s l with
  | nil => exact congrArg s.withTaken (List.append_nil l).symm
  | cons w ws ih =>
    obtain ⟨r, u, hu⟩ := serve_cons_withTaken w s
    have hs : serve (w :: ws) s = (serve ws u).withTaken (s.taken ++ [r] ++ replies ws u) :=
      (hu ws s.taken).trans (ih u _)
    have hr : replies (w :: ws) s = [r] ++ replies ws u := congrArg State.taken ((hu ws []).trans (ih u _))
    rw [hu, ih, hs, hr, State.withTaken_withTaken, List.append_assoc]

/-- The first command has one response, and the rest answers from the state it leaves. -/
theorem replies_cons (w : CmdWord) (s : State) : ∃ r u, ∀ ws, replies (w :: ws) s = r :: replies ws u := by
  obtain ⟨r, u, hu⟩ := serve_cons_withTaken w s
  exact ⟨r, u, fun ws => congrArg State.taken ((hu ws []).trans (serve_withTaken ws u [r]))⟩

/-- Every command has exactly one response (R46, R50 (b)). -/
theorem length_replies (ws : List CmdWord) (s : State) : (replies ws s).length = ws.length := by
  induction ws generalizing s with
  | nil => rfl
  | cons w ws ih =>
    obtain ⟨r, u, hu⟩ := replies_cons w s
    rw [hu, List.length_cons, List.length_cons, ih]

/-- A sequence is served by serving its first part and then the second, from the state the first leaves. -/
theorem serve_append (ws₁ ws₂ : List CmdWord) (s : State) : serve (ws₁ ++ ws₂) s = serve ws₂ (serve ws₁ s) := by
  induction ws₁ generalizing s with
  | nil => rfl
  | cons w ws₁ ih =>
    obtain ⟨r, u, hu⟩ := serve_cons_withTaken w s
    calc serve (w :: (ws₁ ++ ws₂)) s
        = serve (ws₁ ++ ws₂) (u.withTaken (s.taken ++ [r])) := hu _ s.taken
      _ = serve ws₂ (serve ws₁ (u.withTaken (s.taken ++ [r]))) := ih _
      _ = serve ws₂ (serve (w :: ws₁) s) := congrArg (serve ws₂) (hu ws₁ s.taken).symm

/-- The responses to a sequence are those to its first part, then those to the second. -/
theorem replies_append (ws₁ ws₂ : List CmdWord) (s : State) :
    replies (ws₁ ++ ws₂) s = replies ws₁ s ++ replies ws₂ (serve ws₁ s) := by
  calc replies (ws₁ ++ ws₂) s
      = (serve (ws₁ ++ ws₂) (s.withTaken [])).taken := rfl
    _ = (serve ws₂ ((serve ws₁ s).withTaken (replies ws₁ s))).taken := by
        rw [serve_append, serve_withTaken ws₁, List.nil_append]
    _ = replies ws₁ s ++ replies ws₂ (serve ws₁ s) := by rw [serve_withTaken ws₂, State.withTaken_taken]

/-- Settles O49: no command sees the responses delivered before it, so the second part answers from the state the first
left as it would alone (`replies_append`), and every command answers once (`length_replies`). -/
theorem repliesComeInCommandOrder : Obligations.RepliesComeInCommandOrder := by
  unfold Obligations.RepliesComeInCommandOrder
  intro ws₁ ws₂ s
  exact ⟨replies_append ws₁ ws₂ s, length_replies ws₁ s⟩

end Sys2Proof.Machine
end

section
/-! PROOFS. The statements of 30_encoding.md: command words and response words (R63 to R65, R70, R73). -/

namespace Sys2Proof.Machine

/-! ### Command words (R63, R65) -/

/-- A two-bit field that is none of the first three codes is the fourth. -/
theorem eq_three_of_ne {c : BitVec 2} (h0 : c ≠ 0b00#2) (h1 : c ≠ 0b01#2) (h2 : c ≠ 0b10#2) : c = 0b11#2 := by
  bv_omega

theorem opcode_decode (w : CmdWord) : (decode w).opcode = opField w := by
  unfold decode
  split_ifs with h0 h1 h2
  · exact h0.symm
  · exact h1.symm
  · exact h2.symm
  · exact (eq_three_of_ne h0 h1 h2).symm

theorem operand_decode (w : CmdWord) : (decode w).operand = dataField w := by
  unfold decode
  split_ifs <;> rfl

/-- A command word is its two fields (R63). -/
theorem opField_append_dataField (w : CmdWord) : opField w ++ dataField w = w :=
  BitVec.extractLsb'_append_extractLsb' (w := 2) (len := 32)

/-- The encoder gives back the word that was decoded: no bit is lost (R63, R73). -/
theorem encode_decode (w : CmdWord) : encode (decode w) = w := by
  rw [encode, opcode_decode, operand_decode, opField_append_dataField]

/-- A word decodes to the one command with its opcode and its operand (R63, R65). -/
theorem decode_eq_iff {w : CmdWord} {i : Instr} : decode w = i ↔ opField w = i.opcode ∧ dataField w = i.operand := by
  constructor
  · rintro rfl
    exact ⟨(opcode_decode w).symm, (operand_decode w).symm⟩
  · rintro ⟨hop, hdata⟩
    rw [← opField_append_dataField w, hop, hdata]
    exact decode_encode i

/-- Read with at least 34 bits, the number of a command word is that word (R63; log 15). -/
theorem decodeTableWord_toNat {nbits : Nat} (hn : 34 ≤ nbits) (w : CmdWord) :
    decodeTableWord nbits w.toNat = some (decode w) := by
  have hle : w.toNat < 2 ^ nbits := w.isLt.trans_le (Nat.pow_le_pow_right (by decide) hn)
  have hwf : wellFormedWord w.toNat = true := decide_eq_true w.isLt
  rw [decodeTableWord, Nat.mod_eq_of_lt hle, decodeNumber, if_pos hwf, BitVec.ofNat_toNat, BitVec.setWidth_eq]
  rfl

/-- Settles O2: `decode_encode` read through the opcode table, and `encode_decode`. -/
theorem decodeAndEncodeAgreeOnEveryCommand : Obligations.DecodeAndEncodeAgreeOnEveryCommand := by
  unfold Obligations.DecodeAndEncodeAgreeOnEveryCommand
  refine ⟨fun i _ => ⟨?_, ?_⟩, encode_decode⟩
  · rw [decodeTableWord_toNat le_rfl, decode_encode]
  · rw [decodeTableWord_toNat (by decide), decode_encode]

/-- The opcode field, as a number. -/
theorem opField_toNat (w : CmdWord) : (opField w).toNat = w.toNat / 2 ^ 32 := by
  rw [opField, BitVec.extractLsb'_toNat, Nat.shiftRight_eq_div_pow, Nat.mod_eq_of_lt (by omega)]

/-- The operand field is the word without the bits above bit 31. -/
theorem dataField_eq_ofNat (w : CmdWord) : dataField w = BitVec.ofNat 32 w.toNat := by
  rw [dataField, BitVec.extractLsb', Nat.shiftRight_zero]

/-- The mask of the opcode map keeps the opcode field and clears the operand (R65). -/
theorem mask_eq_append_iff (w : CmdWord) (op : BitVec 2) : w &&& 0x300000000#34 = op ++ 0#32 ↔ opField w = op := by
  have hmask : w &&& 0x300000000#34 = opField w ++ 0#32 := by
    calc w &&& 0x300000000#34
        = (opField w ++ dataField w) &&& (BitVec.allOnes 2 ++ 0#32) := by rw [opField_append_dataField]; rfl
      _ = opField w ++ 0#32 := by rw [BitVec.and_append, BitVec.and_allOnes, BitVec.and_zero]
  rw [hmask, BitVec.append_left_inj]

/-- A word matches a row of the opcode map exactly if it decodes to that row's command with its own operand (R65). -/
theorem mask_eq_iff_decode {w row : CmdWord} {i : Instr} (op : BitVec 2) (hrow : op ++ 0#32 = row)
    (hop : i.opcode = op) (hi : i.operand = BitVec.ofNat 32 w.toNat) : w &&& 0x300000000#34 = row ↔ decode w = i := by
  rw [← hrow, ← hop, mask_eq_append_iff, decode_eq_iff, hi, dataField_eq_ofNat, and_iff_left rfl]

/-- Settles O3: the opcode field in numbers, and `mask_eq_iff_decode` for each of the four rows. -/
theorem opcodeMapInMatchAndMaskForm : Obligations.OpcodeMapInMatchAndMaskForm := by
  unfold Obligations.OpcodeMapInMatchAndMaskForm
  intro w
  exact ⟨opField_toNat w, mask_eq_iff_decode 0b00#2 (by decide) rfl rfl,
    mask_eq_iff_decode 0b01#2 (by decide) rfl rfl, mask_eq_iff_decode 0b10#2 (by decide) rfl rfl,
    mask_eq_iff_decode 0b11#2 (by decide) rfl rfl⟩

/-- Settles O1: the fields of each of the eight words are the opcode and the operand of its command. -/
theorem specWordsDecodeToTheirCommands : Obligations.SpecWordsDecodeToTheirCommands := by
  unfold Obligations.SpecWordsDecodeToTheirCommands
  simp only [decode_eq_iff]
  decide

/-- Settles O39: a word from `3 * 2^32` up has opcode 11, and `exec_rsvd` says what that is answered. -/
theorem reservedOpcodeIsAlwaysIllegal : Obligations.ReservedOpcodeIsAlwaysIllegal := by
  unfold Obligations.ReservedOpcodeIsAlwaysIllegal
  refine ⟨exec_rsvd, fun w s hw => ?_⟩
  have hop : opField w = 0b11#2 := by
    refine BitVec.eq_of_toNat_eq ?_
    rw [opField_toNat]
    have := w.isLt
    simp only [BitVec.toNat_ofNat]
    omega
  have hd : decode w = .rsvd (dataField w) := decode_eq_iff.2 ⟨hop, rfl⟩
  rw [hd]
  exact exec_rsvd _ s

/-! ### Response words (R64, R70) -/

@[simp] theorem statusOfCode_code (st : Status) : statusOfCode st.code = st := by
  cases st <;> rfl

@[simp] theorem code_statusOfCode (c : BitVec 2) : (statusOfCode c).code = c := by
  unfold statusOfCode
  split_ifs with h0 h1 h2
  · exact h0.symm
  · exact h1.symm
  · exact h2.symm
  · exact (eq_three_of_ne h0 h1 h2).symm

@[simp] theorem rspStatus_encodeResponse (st : Status) (d : Result) : rspStatus (encodeResponse st d) = st.code :=
  BitVec.extractLsb'_append_eq_left

@[simp] theorem rspData_encodeResponse (st : Status) (d : Result) : rspData (encodeResponse st d) = d :=
  BitVec.extractLsb'_append_eq_right

/-- A response word is its status code times `2^33` plus its result (R64). -/
theorem encodeResponse_toNat (st : Status) (d : Result) :
    (encodeResponse st d).toNat = st.code.toNat * 2 ^ 33 + d.toNat := by
  rw [encodeResponse, BitVec.toNat_append, ← Nat.shiftLeft_add_eq_or_of_lt d.isLt, Nat.shiftLeft_eq]

/-- A response word is its two fields (R64). -/
theorem encodeResponse_fields (r : RspWord) : encodeResponse (statusOfCode (rspStatus r)) (rspData r) = r := by
  rw [encodeResponse, code_statusOfCode]
  exact BitVec.extractLsb'_append_extractLsb' (w := 2) (len := 33)

/-- Settles O4: the layout in numbers with the code of each status, and the fields in both directions. -/
theorem responseWordCarriesStatusAndData : Obligations.ResponseWordCarriesStatusAndData := by
  unfold Obligations.ResponseWordCarriesStatusAndData
  refine ⟨fun st d => ⟨?_, by simp, by simp⟩, encodeResponse_fields⟩
  rw [encodeResponse_toNat]
  cases st <;> rfl

end Sys2Proof.Machine
end

section
/-! PROOFS. The statements of 30_encoding.md: commands as text (R72). -/

namespace Sys2Proof.Machine

/-! ### The words of a line -/

theorem splitWords_space (cs : List Char) : splitWords (' ' :: cs) = splitWords cs := by
  rw [splitWords]

theorem splitWords_singleton {c : Char} (hc : c ≠ ' ') : splitWords [c] = [[c]] := by
  rw [splitWords]
  exact hc

theorem splitWords_cons_space {c : Char} (hc : c ≠ ' ') (cs : List Char) :
    splitWords (c :: ' ' :: cs) = [c] :: splitWords cs := by
  rw [splitWords, splitWords_space]
  exact hc

theorem splitWords_cons_cons {c d : Char} (hc : c ≠ ' ') (hd : d ≠ ' ') {cs w : List Char} {ws : List (List Char)}
    (h : splitWords (d :: cs) = w :: ws) : splitWords (c :: d :: cs) = (c :: w) :: ws := by
  rw [splitWords, h]
  all_goals simp [hc, hd]

/-- A run without a space, up to a space or the end of the line, is a word (log 17). -/
theorem splitWords_append {w rest : List Char} (hne : w ≠ []) (hw : ' ' ∉ w)
    (hrest : rest = [] ∨ ∃ cs, rest = ' ' :: cs) : splitWords (w ++ rest) = w :: splitWords rest := by
  induction w with
  | nil => exact absurd rfl hne
  | cons c w ih =>
    obtain ⟨hc, hw⟩ := List.ne_and_not_mem_of_not_mem_cons hw
    cases w with
    | nil =>
      rcases hrest with rfl | ⟨cs, rfl⟩
      · exact splitWords_singleton hc.symm
      · rw [splitWords_space]
        exact splitWords_cons_space hc.symm cs
    | cons d w =>
      obtain ⟨hd, -⟩ := List.ne_and_not_mem_of_not_mem_cons hw
      exact splitWords_cons_cons hc.symm hd.symm (ih (List.cons_ne_nil d w) hw)

/-- A run without a space is one word. -/
theorem splitWords_word {w : List Char} (hne : w ≠ []) (hw : ' ' ∉ w) : splitWords w = [w] := by
  simpa [splitWords] using splitWords_append hne hw (.inl rfl)

/-! ### Numbers in decimal -/

/-- The last decimal digit of a number. -/
def digitChar (n : Nat) : Char :=
  Char.ofNat (48 + n % 10)

/-- A digit is read as itself. -/
theorem digitValue_digitChar (n : Nat) : digitValue 10 (digitChar n) = some (n % 10) := by
  have hdigit : ∀ d < 10, digitValue 10 (Char.ofNat (48 + d)) = some d := by decide
  exact hdigit _ (Nat.mod_lt n (by decide))

/-- No digit ends a word or names another base. -/
theorem digitChar_ne (n : Nat) : digitChar n ≠ ' ' ∧ digitChar n ≠ 'x' ∧ digitChar n ≠ 'b' := by
  have hdigit : ∀ d < 10, Char.ofNat (48 + d) ≠ ' ' ∧ Char.ofNat (48 + d) ≠ 'x' ∧ Char.ofNat (48 + d) ≠ 'b' := by
    decide
  exact hdigit _ (Nat.mod_lt n (by decide))

theorem digitsValue_digitChar (acc n : Nat) (cs : List Char) :
    digitsValue 10 acc (digitChar n :: cs) = digitsValue 10 (acc * 10 + n % 10) cs := by
  rw [digitsValue, digitValue_digitChar]

theorem decimalDigits_succ (fuel n : Nat) (rest : List Char) :
    decimalDigits (fuel + 1) n rest =
      if n / 10 = 0 then digitChar n :: rest else decimalDigits fuel (n / 10) (digitChar n :: rest) :=
  rfl

/-- What is put before the rest are digits, at least one. -/
theorem decimalDigits_eq_digits (fuel n : Nat) (rest : List Char) :
    ∃ (k : Nat) (ks : List Nat), decimalDigits (fuel + 1) n rest = digitChar k :: (ks.map digitChar ++ rest) := by
  induction fuel generalizing n rest with
  | zero => exact ⟨n, [], by rw [decimalDigits_succ]; split <;> rfl⟩
  | succ fuel ih =>
    rw [decimalDigits_succ]
    split
    · exact ⟨n, [], rfl⟩
    · obtain ⟨k, ks, h⟩ := ih (n / 10) (digitChar n :: rest)
      exact ⟨k, ks ++ [n], by simp [h]⟩

/-- With fuel for all its digits, a number is read back from them, and reading goes on after it. -/
theorem digitsValue_decimalDigits (fuel : Nat) {n : Nat} (hn : n < 10 ^ fuel) (rest : List Char) :
    digitsValue 10 0 (decimalDigits fuel n rest) = digitsValue 10 n rest := by
  induction fuel generalizing n rest with
  | zero => rw [show n = 0 by simpa using hn]; rfl
  | succ fuel ih =>
    rw [decimalDigits_succ]
    split
    · rw [digitsValue_digitChar]
      congr 1
      omega
    · rw [ih (by omega), digitsValue_digitChar, Nat.div_add_mod']

/-- Without the letter of another base, a number is read in decimal (R72). -/
theorem parseNumber_decimal {c : Char} {cs : List Char} (hx : 'x' ∉ cs) (hb : 'b' ∉ cs) :
    parseNumber (c :: cs) = digitsValue 10 0 (c :: cs) := by
  rw [parseNumber]
  · rintro d ds - rfl
    simp at hx
  · rintro d ds - rfl
    simp at hb

theorem printNumber_eq_digits (n : Nat) :
    ∃ (k : Nat) (ks : List Nat), printNumber n = digitChar k :: ks.map digitChar := by
  simpa [printNumber] using decimalDigits_eq_digits 10 n []

/-- A number in decimal is a word. -/
theorem printNumber_word (n : Nat) : printNumber n ≠ [] ∧ ' ' ∉ printNumber n := by
  obtain ⟨k, ks, h⟩ := printNumber_eq_digits n
  simp [h, digitChar_ne, eq_comm (a := ' ')]

/-- A number of at most eleven digits is read back from its decimal form. -/
theorem parseNumber_printNumber {n : Nat} (hn : n < 10 ^ 11) : parseNumber (printNumber n) = some n := by
  obtain ⟨k, ks, h⟩ := printNumber_eq_digits n
  have hx : 'x' ∉ ks.map digitChar := by simp [digitChar_ne]
  have hb : 'b' ∉ ks.map digitChar := by simp [digitChar_ne]
  rw [h, parseNumber_decimal hx hb, ← h]
  exact digitsValue_decimalDigits 11 hn []

/-! ### Lines -/

/-- A mnemonic is a word, and is read as itself (R72). -/
theorem letters_spec (m : Mnemonic) : m.letters ≠ [] ∧ ' ' ∉ m.letters ∧ mnemonicOf m.letters = some m := by
  cases m <;> decide

/-- The number in a well-formed line is an operand (R72). -/
theorem operand_lt_of_wellFormed {l : Line} (hl : l.wellFormed = true) {n : Nat} (hn : l.operand = some n) :
    n < 2 ^ 32 := by
  simpa [Line.wellFormed, hn] using hl

/-- A well-formed line is read back from its text (R72). -/
theorem parseLine_text {l : Line} (hl : l.wellFormed = true) : parseLine l.text = some l := by
  obtain ⟨m, operand⟩ := l
  obtain ⟨hne, hspace, hm⟩ := letters_spec m
  cases operand with
  | none => simp [Line.text, parseLine, splitWords_word hne hspace, hm]
  | some n =>
    obtain ⟨hne', hspace'⟩ := printNumber_word n
    have hn : n < 10 ^ 11 := (operand_lt_of_wellFormed hl rfl).trans (by decide)
    have hsplit : splitWords (m.letters ++ ' ' :: printNumber n) = [m.letters, printNumber n] := by
      rw [splitWords_append hne hspace (.inr ⟨_, rfl⟩), splitWords_space, splitWords_word hne' hspace']
    simp [Line.text, parseLine, hsplit, hm, parseNumber_printNumber hn]

/-- The line of a command is well-formed and stands for that command (R72). -/
theorem line_spec (i : Instr) : i.line.wellFormed = true ∧ i.line.assemble = some i := by
  cases i with
  | init pv => simp [Instr.line, Line.assemble, Line.wellFormed, pv.isLt]
  | add h => simp [Instr.line, Line.assemble, Line.wellFormed, h.isLt]
  | est x =>
    by_cases hx : x = 0#32
    · subst hx; exact ⟨rfl, rfl⟩
    · simp [Instr.line, Line.assemble, Line.wellFormed, x.isLt, hx]
  | rsvd d => simp [Instr.line, Line.assemble, Line.wellFormed, d.isLt]

/-- Settles O5: the line of a command is well-formed, its text is read back as the line, and the line stands for the
command. -/
theorem printedCommandReadsBack : Obligations.PrintedCommandReadsBack := by
  unfold Obligations.PrintedCommandReadsBack
  intro i
  obtain ⟨hwf, hi⟩ := line_spec i
  rw [parseCommand, parseLine_text hwf]
  exact hi

end Sys2Proof.Machine
end

section
/-! PROOFS. The statements of 30_encoding.md: a command, a step and a sequence of commands (R62, R68). -/

namespace Sys2Proof.Machine

/-! ### One command of a sequence -/

/-- A ready block carries out the command word offered next, and delivers its response (R62). -/
theorem step_of_offer {s : State} {w : CmdWord} {rest : List HostAction} (hc : s.cmd = none) (hr : s.rsp = none)
    (hp : s.pending = .command w :: rest) :
    ∃ t, exec (decode w) ((s.withPending rest).accept w) = .next t ∧ step s = .next t.deliver := by
  rw [step_of_pending hr hc hp]
  exact complete_total w _

/-- Settles O6: the state `exec` is given is the ready block that has accepted the word. -/
theorem stepRunsTheDecodedCommand : Obligations.StepRunsTheDecodedCommand := by
  unfold Obligations.StepRunsTheDecodedCommand
  intro s w rest hc hr hp
  exact step_of_offer hc hr hp

theorem serve_cons_of_exec {w : CmdWord} {s t : State} (h : exec (decode w) (s.accept w) = .next t)
    (ws : List CmdWord) : serve (w :: ws) s = serve ws t.deliver := by
  simp only [serve, complete, h]

/-- The response to the first command is the one `exec` leaves, and the rest answers from the state after it (R62). -/
theorem replies_cons_of_exec {w : CmdWord} {s t : State} {r : RspWord} (h : exec (decode w) (s.accept w) = .next t)
    (hr : t.rsp = some r) (ws : List CmdWord) : replies (w :: ws) s = r :: replies ws t.deliver := by
  have hl : exec (decode w) ((s.withTaken []).accept w) = .next (t.withTaken []) := exec_withTaken h []
  calc replies (w :: ws) s
      = (serve ws (t.withTaken []).deliver).taken := congrArg State.taken (serve_cons_of_exec hl ws)
    _ = r :: replies ws t.deliver := by rw [State.deliver_withTaken hr, serve_withTaken]; rfl

/-- A command leaves one response to deliver, behind those delivered before it (R62). -/
theorem taken_deliver_of_exec {i : Instr} {s t : State} (h : exec i s = .next t) :
    ∃ r, t.rsp = some r ∧ t.deliver.taken = s.taken ++ [r] := by
  obtain ⟨-, hrsp, -, htaken⟩ := exec_ports h
  obtain ⟨r, hr⟩ := Option.isSome_iff_exists.1 hrsp
  exact ⟨r, hr, by simp [hr, htaken]⟩

/-! ### Pending commands -/

/-- No arm of `exec` reads or changes what is pending. -/
theorem exec_withPending {i : Instr} {s t : State} (h : exec i s = .next t) (l : List HostAction) :
    exec i (s.withPending l) = .next (t.withPending l) := by
  cases i with
  | init pv =>
    rcases execInit_next h with ⟨hv, rfl⟩ | ⟨hv, rfl⟩
    · exact exec_init_of_valid hv _
    · exact exec_init_of_invalid hv _
  | add x =>
    rcases execAdd_next h with ⟨hc, rfl⟩ | ⟨hc, rfl⟩
    · exact exec_add_of_configured x hc
    · exact exec_add_of_unconfigured x hc
  | est x =>
    rcases execEst_next (x := x) h with ⟨hc, rfl⟩ | ⟨hc, rfl⟩
    · exact exec_est_of_configured x hc
    · exact exec_est_of_unconfigured x hc
  | rsvd d => cases execRsvd_next (d := d) h; exact exec_rsvd d _

theorem State.deliver_withPending (s : State) (l : List HostAction) :
    (s.withPending l).deliver = s.deliver.withPending l :=
  State.ext_fields (by simp) (by simp) (by simp) (by simp) (by simp) (by simp) (by simp)

theorem State.withPending_of_pending {s : State} {l : List HostAction} (h : s.pending = l) : s.withPending l = s := by
  subst h; rfl

/-- Pending command words, carried out step by step, are served in order (R62; log 1). -/
theorem run_pending (ws : List CmdWord) (rest : List HostAction) {s : State} (hc : s.cmd = none) (hr : s.rsp = none)
    (hp : s.pending = ws.map .command ++ rest) :
    Sys2Proof.core.run ws.length s = .next (serve ws (s.withPending rest)) := by
  induction ws generalizing s with
  | nil =>
    have hs : s.withPending rest = s := State.withPending_of_pending hp
    rw [hs]
    rfl
  | cons w ws ih =>
    obtain ⟨t, he, hs⟩ := step_of_offer hc hr hp
    obtain ⟨htc, -, htp, -⟩ := exec_ports he
    have hserve : serve (w :: ws) (s.withPending rest) = serve ws (t.deliver.withPending rest) := by
      rw [← State.deliver_withPending]
      exact serve_cons_of_exec (exec_withPending he rest) ws
    rw [List.length_cons, run_succ hs, hserve]
    exact ih (by simp [htc]) (by simp) (by simp [htp])

/-- Settles O8: by `run_pending`, one step per word. -/
theorem pendingCommandsRunAsTheSequenceFunction : Obligations.PendingCommandsRunAsTheSequenceFunction := by
  unfold Obligations.PendingCommandsRunAsTheSequenceFunction
  intro ws rest s hc hr hp
  exact run_pending ws rest hc hr hp

/-! ### One answer per command -/

/-- Settles O10: of what a step can do, the delivery of a held response and the completion of a command append one
response, and a reset, an abandoned command and waiting none. -/
theorem everyCommandIsAnsweredExactlyOnce : Obligations.EveryCommandIsAnsweredExactlyOnce := by
  unfold Obligations.EveryCommandIsAnsweredExactlyOnce
  intro s
  rcases step_cases s with ⟨hr, hs⟩ | ⟨hr, w, t, hc, he, hs⟩ | ⟨hr, hc, w, rest, t, hp, he, hs⟩ |
    ⟨hr, hc, rest, hp, hs⟩ | ⟨hr, hc, w, rest, hp, hs⟩ | ⟨hr, hc, w, rest, t, hp, he, hs⟩ | ⟨hr, hc, hp, hs⟩
  · obtain ⟨r, hr⟩ := Option.ne_none_iff_exists'.1 hr
    exact ⟨_, [r], hs, by simp [hr], by simp [hr], le_rfl⟩
  · obtain ⟨r, -, htaken⟩ := taken_deliver_of_exec he
    exact ⟨_, [r], hs, htaken, by simp [State.nextAction, hr, hc], le_rfl⟩
  · obtain ⟨r, -, htaken⟩ := taken_deliver_of_exec he
    exact ⟨_, [r], hs, htaken, by simp [State.nextAction, hr, hc, hp], le_rfl⟩
  · exact ⟨_, [], hs, by simp, by simp [State.nextAction, hr, hc, hp], Nat.zero_le 1⟩
  · exact ⟨_, [], hs, by simp, by simp [State.nextAction, hr, hc, hp], Nat.zero_le 1⟩
  · obtain ⟨-, -, -, htaken⟩ := exec_ports he
    exact ⟨_, [], hs, by simp [htaken], by simp [State.nextAction, hr, hc, hp], Nat.zero_le 1⟩
  · exact ⟨_, [], hs, by simp, by simp [State.nextAction, hr, hc, hp], Nat.zero_le 1⟩

/-! ### A configured block (R142) -/

/-- No command of a configured block is answered `NOT_CONFIGURED` (R142, R146). -/
theorem exec_status_of_configured {i : Instr} {s t : State} (h : exec i s = .next t) (hc : s.cfg = true) :
    ∃ st d, t.rsp = some (encodeResponse st d) ∧ st ≠ .notConfigured := by
  cases i with
  | init pv => rcases execInit_next h with ⟨-, rfl⟩ | ⟨-, rfl⟩ <;> exact ⟨_, _, rfl, by decide⟩
  | add x =>
    rcases execAdd_next h with ⟨-, rfl⟩ | ⟨hc', -⟩
    · exact ⟨_, _, rfl, by decide⟩
    · simp [hc] at hc'
  | est x =>
    rcases execEst_next (x := x) h with ⟨-, rfl⟩ | ⟨hc', -⟩
    · exact ⟨_, _, rfl, by decide⟩
    · simp [hc] at hc'
  | rsvd d => cases execRsvd_next (d := d) h; exact ⟨_, _, rfl, by decide⟩

/-- A configured block stays configured, so no sequence of commands is answered `NOT_CONFIGURED` (R20, R142). -/
theorem replies_of_configured (ws : List CmdWord) {s : State} (hc : s.cfg = true) :
    ∀ r ∈ replies ws s, statusOfCode (rspStatus r) ≠ .notConfigured := by
  induction ws generalizing s with
  | nil => exact fun _ hr => absurd hr List.not_mem_nil
  | cons w ws ih =>
    obtain ⟨t, he, -⟩ := complete_total w (s.accept w)
    obtain ⟨st, d, hrsp, hst⟩ := exec_status_of_configured he hc
    have htc : t.deliver.cfg = true := by simp [(exec_writes he).cfg_of_cfg hc]
    rw [replies_cons_of_exec he hrsp, List.forall_mem_cons]
    exact ⟨by simpa using hst, ih htc⟩

/-- Settles O34: what `EST` and `ADD` answer by `CFG`, with the operand of `EST` in none of it, and
`replies_of_configured`. -/
theorem estAnswersAndWritesNothing : Obligations.EstAnswersAndWritesNothing := by
  unfold Obligations.EstAnswersAndWritesNothing
  intro x y h s
  exact ⟨fun hc => exec_est_of_configured x hc, rfl,
    fun hc => ⟨exec_est_of_unconfigured x hc, exec_add_of_unconfigured h hc⟩, fun hc ws => replies_of_configured ws hc⟩

end Sys2Proof.Machine
end

section
/-! PROOFS. The statements of 30_encoding.md: the pins (R60 to R62). -/

namespace Sys2Proof.Machine

@[simp] theorem Clocked.onDeliver_st (c : Clocked) (r : RspWord) : (c.onDeliver r).st = c.st.deliver := rfl

@[simp] theorem Clocked.onDeliver_accepted (c : Clocked) (r : RspWord) : (c.onDeliver r).accepted = c.accepted := rfl

@[simp] theorem Clocked.onDeliver_answered (c : Clocked) (r : RspWord) :
    (c.onDeliver r).answered = c.answered ++ [r] := rfl

/-- The delivery of a response leaves the architectural state. -/
@[simp] theorem State.arch_deliver (s : State) : s.deliver.arch = s.arch :=
  State.arch_congr s.deliver_cfg s.deliver_p s.deliver_reg

/-! ### What an edge can do -/

/-- Everything a clock edge that is not refused can lead to (R61, R62, R170, R181): a reset; the response held, delivered
or kept; the command held, kept for the rest of its latency or carried out; in an empty block, nothing, or a command
word accepted, and carried out at once or kept. -/
inductive Clocked.Edge (c : Clocked) (pins : Pins) : Clocked → Prop where
  | reset (hrst : pins.rst = true) : Edge c pins c.onReset
  | deliver (hrst : pins.rst = false) {r : RspWord} (hr : c.st.rsp = some r) (hready : pins.rspReady = true) :
    Edge c pins ({ c with offer := pins.offered }.onDeliver r)
  | keepResponse (hrst : pins.rst = false) {r : RspWord} (hr : c.st.rsp = some r) (hready : pins.rspReady = false) :
    Edge c pins { c with offer := pins.offered }
  | keepCommand (hrst : pins.rst = false) {w : CmdWord} (hr : c.st.rsp = none) (hc : c.st.cmd = some w) (n : Nat)
    (hw : c.wait = n + 1) : Edge c pins { c with wait := n, offer := pins.offered }
  | carryOut (hrst : pins.rst = false) {w : CmdWord} {t : State} (hr : c.st.rsp = none) (hc : c.st.cmd = some w)
    (hw : c.wait = 0) (he : exec (decode w) c.st = .next t) : Edge c pins { c with offer := pins.offered, st := t }
  | wait (hrst : pins.rst = false) (hr : c.st.rsp = none) (hc : c.st.cmd = none) (hvalid : pins.cmdValid = false) :
    Edge c pins { c with offer := none }
  | acceptAndCarryOut (hrst : pins.rst = false) {t : State} (hr : c.st.rsp = none) (hc : c.st.cmd = none)
    (hvalid : pins.cmdValid = true) (hl : latency (decode pins.word) c.count c.st = 0)
    (he : exec (decode pins.word) (c.st.accept pins.word) = .next t) :
    Edge c pins { c.onAccept pins.word 0 with st := t }
  | accept (hrst : pins.rst = false) (hr : c.st.rsp = none) (hc : c.st.cmd = none) (hvalid : pins.cmdValid = true)
    (n : Nat) (hl : latency (decode pins.word) c.count c.st = n + 1) : Edge c pins (c.onAccept pins.word n)

/-- An edge without reset at which the host keeps its duty answers a next state, one that `Clocked.Edge` lists. -/
theorem Clocked.tick_of_unbroken {c : Clocked} {pins : Pins} (hrst : pins.rst = false) (hb : c.broken pins = false) :
    ∃ c', c.tick pins = .next c' ∧ c.Edge pins c' := by
  cases hr : c.st.rsp with
  | some r =>
    cases hready : pins.rspReady with
    | true => exact ⟨_, by simp [Clocked.tick, hrst, hb, hr, hready], .deliver hrst hr hready⟩
    | false => exact ⟨_, by simp [Clocked.tick, hrst, hb, hr, hready], .keepResponse hrst hr hready⟩
  | none =>
    cases hc : c.st.cmd with
    | some w =>
      cases hw : c.wait with
      | zero =>
        obtain ⟨t, he, hcarry⟩ := Clocked.carryOut_cases { c with offer := pins.offered } w
        exact ⟨_, by simpa [Clocked.tick, hrst, hb, hr, hc, hw] using hcarry, .carryOut hrst hr hc hw he⟩
      | succ n => exact ⟨_, by simp [Clocked.tick, hrst, hb, hr, hc, hw], .keepCommand hrst hr hc n hw⟩
    | none =>
      cases hvalid : pins.cmdValid with
      | false => exact ⟨_, by simp [Clocked.tick, hrst, hb, hr, hc, hvalid], .wait hrst hr hc hvalid⟩
      | true =>
        have htick : c.tick pins = c.begin pins.word := by simp [Clocked.tick, hrst, hb, hr, hc, hvalid]
        rw [htick]
        rcases Clocked.begin_cases c pins.word with ⟨hl, t, he, hbegin⟩ | ⟨n, hl, hbegin⟩
        · exact ⟨_, hbegin, .acceptAndCarryOut hrst hr hc hvalid hl he⟩
        · exact ⟨_, hbegin, .accept hrst hr hc hvalid n hl⟩

/-- An edge is refused, as the host breaks its duty, or answers a next state that `Clocked.Edge` lists. -/
theorem Clocked.tick_cases (c : Clocked) (pins : Pins) :
    (pins.rst = false ∧ c.broken pins = true ∧ c.tick pins = .refused .brokenHandshake) ∨
      ((pins.rst = true ∨ c.broken pins = false) ∧ ∃ c', c.tick pins = .next c' ∧ c.Edge pins c') := by
  cases hrst : pins.rst with
  | true => exact .inr ⟨.inl rfl, _, by simp [Clocked.tick, hrst], .reset hrst⟩
  | false =>
    cases hb : c.broken pins with
    | true => exact .inl ⟨rfl, rfl, by simp [Clocked.tick, hrst, hb]⟩
    | false => exact .inr ⟨.inr rfl, Clocked.tick_of_unbroken hrst hb⟩

theorem Clocked.edge_of_tick {c c' : Clocked} {pins : Pins} (h : c.tick pins = .next c') : c.Edge pins c' := by
  rcases Clocked.tick_cases c pins with ⟨-, -, hrefused⟩ | ⟨-, c'', hnext, hedge⟩
  · simp [hrefused] at h
  · cases hnext.symm.trans h
    exact hedge

/-! ### Refused edges -/

/-- The duty of R61 is broken by another word than the one on offer (log 10). -/
theorem Clocked.broken_iff {c : Clocked} {pins : Pins} :
    c.broken pins = true ↔ ∃ w, c.offer = some w ∧ pins.cmdValid = true ∧ pins.word ≠ w := by
  unfold Clocked.broken
  cases c.offer <;> simp

/-- Settles O53: by `tick_cases` an edge is refused exactly if `rst = 0` and the duty is broken. -/
theorem edgeIsRefusedOnlyForABrokenHandshake : Obligations.EdgeIsRefusedOnlyForABrokenHandshake := by
  unfold Obligations.EdgeIsRefusedOnlyForABrokenHandshake
  intro c pins
  rw [← Clocked.broken_iff]
  rcases Clocked.tick_cases c pins with ⟨hrst, hb, hrefused⟩ | ⟨hok, c', hnext, -⟩
  · exact ⟨.inr hrefused, fun _ => ⟨hrst, hb⟩, fun _ => hrefused⟩
  · refine ⟨.inl ⟨c', hnext⟩, fun h => by simp [hnext] at h, fun ⟨hrst, hb⟩ => ?_⟩
    simp [hrst, hb] at hok

/-! ### Transfers (R60, R61) -/

/-- `cmd_ready` without reset is 1 exactly if the block is empty (R62). -/
@[simp] theorem Clocked.outputs_false_cmdReady (c : Clocked) :
    (c.outputs false).cmdReady = (c.st.cmd.isNone && c.st.rsp.isNone) := rfl

@[simp] theorem Clocked.outputs_false_rsp (c : Clocked) : (c.outputs false).rsp = c.st.rsp := rfl

/-- A command word is accepted exactly if it is offered and the block is ready (R61). -/
theorem Clocked.Edge.accepted_eq {c c' : Clocked} {pins : Pins} (h : c.Edge pins c') (hrst : pins.rst = false) :
    c'.accepted =
      if pins.cmdValid && (c.outputs false).cmdReady then c.accepted ++ [pins.word] else c.accepted := by
  cases h with
  | reset hrst' => simp [hrst] at hrst'
  | deliver _ hr | keepResponse _ hr => simp [hr]
  | keepCommand _ _ hc | carryOut _ _ hc => simp [hc]
  | wait _ _ _ hvalid => simp [hvalid]
  | acceptAndCarryOut _ hr hc hvalid | accept _ hr hc hvalid => simp [hr, hc, hvalid]

/-- A response word is delivered exactly if it is held and the host is ready (R61). -/
theorem Clocked.Edge.answered_eq {c c' : Clocked} {pins : Pins} (h : c.Edge pins c') (hrst : pins.rst = false) :
    c'.answered = if pins.rspReady then c.answered ++ (c.outputs false).rsp.toList else c.answered := by
  cases h with
  | reset hrst' => simp [hrst] at hrst'
  | deliver _ hr hready => simp [hr, hready]
  | keepResponse _ _ hready => simp [hready]
  | keepCommand _ hr | carryOut _ hr | wait _ hr | acceptAndCarryOut _ hr | accept _ hr => simp [hr]

/-- A response that is held and not taken stays (R61). -/
theorem Clocked.Edge.rsp_eq_of_not_ready {c c' : Clocked} {pins : Pins} {r : RspWord} (h : c.Edge pins c')
    (hrst : pins.rst = false) (hr : c.st.rsp = some r) (hready : pins.rspReady = false) : c'.st.rsp = some r := by
  cases h with
  | reset hrst' => simp [hrst] at hrst'
  | deliver _ _ hready' => simp [hready] at hready'
  | keepResponse => exact hr
  | keepCommand _ hr' | carryOut _ hr' | wait _ hr' | acceptAndCarryOut _ hr' | accept _ hr' => simp [hr] at hr'

/-- Settles O51: the edge at which `rst = 1` is `onReset`, and the other edges transfer as the lemmas above say. -/
theorem transfersHappenOnlyOnValidAndReady : Obligations.TransfersHappenOnlyOnValidAndReady := by
  unfold Obligations.TransfersHappenOnlyOnValidAndReady
  intro c c' pins h
  constructor
  · intro hrst
    have hc' : c' = c.onReset := by simpa [Clocked.tick, hrst] using h.symm
    subst hc'
    exact ⟨rfl, rfl, rfl, rfl, rfl⟩
  · intro hrst
    have hedge := Clocked.edge_of_tick h
    refine ⟨hedge.accepted_eq hrst, hedge.answered_eq hrst, fun hbusy => ?_, fun r hr hready => ?_⟩
    · rcases hbusy with hc | hr
      · simp [hc]
      · simp [Option.isSome_iff_ne_none, hr]
    · exact hedge.rsp_eq_of_not_ready hrst hr hready

/-! ### The pins and the sequence function (R62) -/

/-- An edge keeps the invariant of the state. -/
theorem Clocked.Edge.inv {c c' : Clocked} {pins : Pins} (h : c.Edge pins c') (hs : c.st.Inv) : c'.st.Inv := by
  cases h with
  | reset => exact State.inv_of_unconfigured rfl hs.1
  | deliver => simpa [State.Inv] using hs
  | keepResponse | keepCommand | wait | accept => exact hs
  | carryOut _ _ _ _ he | acceptAndCarryOut _ _ _ _ _ he => exact exec_inv he hs

theorem serve_inv (ws : List CmdWord) {s : State} (hs : s.Inv) : (serve ws s).Inv := by
  induction ws generalizing s with
  | nil => exact hs
  | cons w ws ih =>
    obtain ⟨t, hw, ht⟩ := serve_cons w ws s
    exact ht ▸ ih (hw.inv hs)

/-- Since the last reset the commands `ws` have been carried out, with the responses `rs`, and the architectural state of
`s` is theirs (R62). -/
def Served (ws : List CmdWord) (rs : List RspWord) (s : State) : Prop :=
  rs = replies ws State.reset ∧ s.arch = (serve ws State.reset).arch

/-! `Sim` by what the block holds: with a response, it is among those owed; with a command, that one is still to come. -/

theorem Clocked.sim_of_response {c : Clocked} {r : RspWord} (hc : c.st.cmd = none) (hr : c.st.rsp = some r) :
    c.Sim ↔ Served c.accepted (c.answered ++ [r]) c.st := by
  simp [Clocked.Sim, hc, hr, Served]

theorem Clocked.sim_of_command {c : Clocked} {w : CmdWord} (hc : c.st.cmd = some w) (hr : c.st.rsp = none) :
    c.Sim ↔ ∃ ws, c.accepted = ws ++ [w] ∧ Served ws c.answered c.st := by
  simp [Clocked.Sim, hc, hr, Served]

theorem Clocked.sim_of_empty {c : Clocked} (hc : c.st.cmd = none) (hr : c.st.rsp = none) :
    c.Sim ↔ Served c.accepted c.answered c.st := by
  simp [Clocked.Sim, hc, hr, Served]

theorem Clocked.Sim.cmd_of_response {c : Clocked} {r : RspWord} (h : c.Sim) (hr : c.st.rsp = some r) :
    c.st.cmd = none := by
  cases hc : c.st.cmd with
  | none => rfl
  | some w => simp [Clocked.Sim, hc, hr] at h

/-- Carrying out one command more serves it: by R31 its response and what it leaves depend on the architectural state
alone. -/
theorem Served.snoc {ws : List CmdWord} {rs : List RspWord} {s t : State} {w : CmdWord} {r : RspWord}
    (h : Served ws rs s) (hs : s.Inv) (he : exec (decode w) s = .next t) (hr : t.rsp = some r) :
    Served (ws ++ [w]) (rs ++ [r]) t := by
  obtain ⟨hrs, harch⟩ := h
  have hu : ((serve ws State.reset).accept w).Inv := serve_inv ws (State.inv_of_unconfigured rfl rfl)
  obtain ⟨t', u', ht', hu', hrsp, harch'⟩ := exec_arch (decode w) hs hu harch
  cases he.symm.trans ht'
  constructor
  · rw [replies_append, replies_cons_of_exec hu' (hrsp ▸ hr), ← hrs]
    rfl
  · rw [serve_append, serve_cons_of_exec hu', harch']
    exact (State.arch_deliver u').symm

/-- A block that carries a command out holds its response, and nothing more is owed. -/
theorem Clocked.sim_of_exec {c : Clocked} {s : State} {ws : List CmdWord} {w : CmdWord}
    (h : Served ws c.answered s) (hs : s.Inv) (hacc : c.accepted = ws ++ [w])
    (he : exec (decode w) s = .next c.st) : c.Sim := by
  obtain ⟨hcmd, -⟩ := exec_ports he
  obtain ⟨r, hr, -⟩ := taken_deliver_of_exec he
  rw [Clocked.sim_of_response hcmd hr, hacc]
  exact h.snoc hs he hr

/-- An edge keeps what the pins owe to the sequence function. -/
theorem Clocked.Edge.sim {c c' : Clocked} {pins : Pins} (h : c.Edge pins c') (hs : c.st.Inv) (hsim : c.Sim) :
    c'.Sim := by
  cases h with
  | reset => exact ⟨rfl, rfl⟩
  | deliver _ hr =>
    have hc := hsim.cmd_of_response hr
    obtain ⟨hrs, harch⟩ := (Clocked.sim_of_response hc hr).1 hsim
    exact (Clocked.sim_of_empty (by simpa using hc) (by simp)).2 ⟨hrs, (State.arch_deliver _).trans harch⟩
  | keepResponse | keepCommand | wait => exact hsim
  | carryOut _ hr hc _ he =>
    obtain ⟨ws, hacc, hserved⟩ := (Clocked.sim_of_command hc hr).1 hsim
    exact Clocked.sim_of_exec hserved hs hacc he
  | acceptAndCarryOut _ hr hc _ _ he =>
    have hserved : Served c.accepted c.answered (c.st.accept pins.word) := (Clocked.sim_of_empty hc hr).1 hsim
    exact Clocked.sim_of_exec hserved hs rfl he
  | accept _ hr hc _ n =>
    have hserved := (Clocked.sim_of_empty hc hr).1 hsim
    exact (Clocked.sim_of_command (c := c.onAccept pins.word n) rfl hr).2 ⟨c.accepted, rfl, hserved⟩

/-- Settles O50: right after reset nothing is accepted, answered or held, and every edge that answers a next state is one
of `Clocked.Edge`, which keeps the invariant and `Sim`. -/
theorem pinsDeliverTheSequenceFunction : Obligations.PinsDeliverTheSequenceFunction := by
  unfold Obligations.PinsDeliverTheSequenceFunction
  refine ⟨⟨⟨rfl, rfl⟩, State.inv_of_unconfigured rfl rfl⟩, fun c c' pins hs hsim h => ?_⟩
  have hedge := Clocked.edge_of_tick h
  exact ⟨hedge.inv hs, hedge.sim hs hsim⟩

end Sys2Proof.Machine
end

section
/-! PROOFS. The statements of 40_split_rank.md: `SPLIT`, `TZ`, `RANK` and the law of the ranks (R80 to R86). -/

namespace Sys2Proof.Machine

/-! ### `SPLIT` (R80, R81) -/

@[simp] theorem split_fst (h : Operand) (p : Nat) : (split h p).1 = splitIndex h p := rfl

@[simp] theorem split_snd (h : Operand) (p : Nat) : (split h p).2 = splitRemainder h p := rfl

/-- The split loses nothing (R81 (c)). -/
theorem splitRemainder_mul_add_splitIndex (h : Operand) {p : Nat} (hp : p ≤ 16) :
    (splitRemainder h p).toNat * 2 ^ p + (splitIndex h p).toNat = h.toNat := by
  rw [splitRemainder_toNat, splitIndex_toNat h hp, Nat.div_add_mod']

theorem split_zero (p : Nat) : split 0#32 p = (0#16, 0#32) := by
  simp [split, splitIndex, splitRemainder]

/-- A word of `n` ones is `n - p` ones above `p` ones. -/
theorem ones_div_mod {p n : Nat} (hp : p ≤ n) :
    (2 ^ n - 1) / 2 ^ p = 2 ^ (n - p) - 1 ∧ (2 ^ n - 1) % 2 ^ p = 2 ^ p - 1 := by
  have hpos : 0 < 2 ^ p := Nat.two_pow_pos p
  refine (Nat.div_mod_unique hpos).2 ⟨?_, by omega⟩
  have hle : 2 ^ p ≤ 2 ^ n := Nat.pow_le_pow_right (by decide) hp
  rw [Nat.mul_sub_one, ← Nat.pow_add, Nat.add_sub_cancel' hp]
  omega

/-- Settles O15: index and remainder are `h mod 2^p` and `h div 2^p` (`splitIndex_toNat`, `splitRemainder_toNat`), which
give their widths and give `h` back; the corner cases are the quotient and remainder of 0 and of 32 ones. -/
theorem splitIsExact : Obligations.SplitIsExact := by
  unfold Obligations.SplitIsExact
  refine ⟨fun h p _ hp => ?_, by decide⟩
  obtain ⟨hdiv, hmod⟩ := ones_div_mod (show p ≤ 32 by omega)
  simp only [split_fst, split_snd]
  refine ⟨?_, ?_, splitIndex_lt h hp, splitRemainder_lt h hp, (splitRemainder_mul_add_splitIndex h hp).symm,
    split_zero p, ?_, ?_⟩
  · rw [splitIndex_toNat h hp, Nat.and_two_pow_sub_one_eq_mod]
  · rw [splitRemainder_toNat, Nat.shiftRight_eq_div_pow]
  · rw [splitIndex_toNat _ hp]; exact hmod
  · rw [splitRemainder_toNat]; exact hdiv

/-! ### `TZ` (R83) -/

/-- Below the bit that `TZ` finds every bit is 0 (R83). -/
theorem getLsbD_of_lt_tz {w : Operand} {i : Nat} (hi : i < tz w) : w.getLsbD i = false := by
  unfold tz at hi
  cases hf : (List.range 32).find? fun i => w.getLsbD i with
  | some k =>
    rw [hf] at hi
    simpa using (List.find?_range_eq_some.1 hf).2.2 i hi
  | none =>
    rw [hf] at hi
    simpa using List.find?_eq_none.1 hf i (List.mem_range.2 hi)

/-- A power of two divides a number exactly if the bits below its exponent are 0. -/
theorem mod_two_pow_eq_zero_iff_testBit (n i : Nat) : n % 2 ^ i = 0 ↔ ∀ j < i, n.testBit j = false := by
  constructor
  · intro h j hj
    have hbit := Nat.testBit_mod_two_pow n i j
    rw [h] at hbit
    simpa [hj] using hbit
  · intro h
    refine Nat.eq_of_testBit_eq fun j => ?_
    rw [Nat.testBit_mod_two_pow, Nat.zero_testBit]
    by_cases hj : j < i
    · simp [h j hj]
    · simp [hj]

/-- `TZ(w)` is the greatest `i` with `w mod 2^i = 0` (R83). -/
theorem toNat_mod_two_pow_eq_zero_iff {w : Operand} (hw : w ≠ 0#32) (i : Nat) : w.toNat % 2 ^ i = 0 ↔ i ≤ tz w := by
  rw [mod_two_pow_eq_zero_iff_testBit]
  constructor
  · intro h
    by_contra! hlt
    exact Bool.noConfusion ((getLsbD_tz hw).symm.trans (h _ hlt))
  · exact fun hi j hj => getLsbD_of_lt_tz (hj.trans_le hi)

/-- The lowest set bit lies within the width (R83). -/
theorem tz_lt {w : Operand} (hw : w ≠ 0#32) {n : Nat} (hn : w.toNat < 2 ^ n) : tz w < n :=
  (Nat.pow_lt_pow_iff_right (by decide)).1 ((Nat.ge_two_pow_of_testBit (getLsbD_tz hw)).trans_lt hn)

/-- Settles O16: the bit at `TZ(w)` is 1 and those below it are 0, so it is the greatest exponent that divides, and lies
within the width of `w`. -/
theorem trailingZeroCountIsTheLowestSetBit : Obligations.TrailingZeroCountIsTheLowestSetBit := by
  unfold Obligations.TrailingZeroCountIsTheLowestSetBit
  refine ⟨fun w hw => ⟨getLsbD_tz hw, fun i => getLsbD_of_lt_tz, toNat_mod_two_pow_eq_zero_iff hw, ?_⟩, by decide⟩
  intro p _ hp hlt
  have := tz_lt hw hlt
  omega

/-! ### `RANK` (R84 to R86) -/

/-- A number ends in a 1 and `k` zeros exactly if `2^k` divides it and `2^(k+1)` does not. -/
theorem mod_two_pow_succ_eq_iff (n k : Nat) :
    n % 2 ^ (k + 1) = 2 ^ k ↔ n % 2 ^ k = 0 ∧ n % 2 ^ (k + 1) ≠ 0 := by
  have hpos : 0 < 2 ^ k := Nat.two_pow_pos k
  have hlt : n % 2 ^ k < 2 ^ k := Nat.mod_lt _ hpos
  rw [Nat.mod_pow_succ]
  rcases Nat.mod_two_eq_zero_or_one (n / 2 ^ k) with h | h <;> rw [h] <;> omega

/-- The remainders of rank `k + 1` are those that end in a 1 and `k` zeros (R84, R86). -/
theorem rank_eq_succ_iff (w : Operand) {p k : Nat} (hk : k < 32 - p) :
    rank w p = k + 1 ↔ w.toNat % 2 ^ (k + 1) = 2 ^ k := by
  by_cases hw : w = 0#32
  · have hpos : 0 < 2 ^ k := Nat.two_pow_pos k
    subst hw
    rw [rank_zero, BitVec.toNat_ofNat, Nat.zero_mod]
    unfold Config.rankMax
    omega
  · rw [mod_two_pow_succ_eq_iff, Ne, toNat_mod_two_pow_eq_zero_iff hw, toNat_mod_two_pow_eq_zero_iff hw,
      rank_of_ne_zero hw]
    omega

/-- The rank of a non-zero remainder is at most its width (R84). -/
theorem rank_le_of_ne_zero {w : Operand} {p : Nat} (hw : w ≠ 0#32) (hlt : w.toNat < 2 ^ (32 - p)) : rank w p ≤ 32 - p := by
  rw [rank_of_ne_zero hw]
  exact tz_lt hw hlt

/-- Only the all-zero remainder has the greatest rank (R85). -/
theorem rank_eq_rankMax_iff {w : Operand} {p : Nat} (hp : p ≤ 16) (hlt : w.toNat < 2 ^ (32 - p)) :
    rank w p = Config.rankMax p ↔ w = 0#32 := by
  refine ⟨fun hr => ?_, fun hw => hw ▸ rank_zero p⟩
  by_contra hw
  have := rank_le_of_ne_zero hw hlt
  unfold Config.rankMax at hr
  omega

/-- Settles O17: the rank of a non-zero remainder is `TZ + 1`, which no precision enters; the odd remainders and
`2^(31-p)` are the extremes of `rank_eq_succ_iff`, and the all-zero remainder is `rank_zero`. -/
theorem rankOfNonZeroAndAllZeroRemainders : Obligations.RankOfNonZeroAndAllZeroRemainders := by
  unfold Obligations.RankOfNonZeroAndAllZeroRemainders
  refine ⟨fun p _ hp => ⟨fun w hw hlt => ?_, rank_zero p, rank_of_ne_zero (by decide) p, rank_of_ne_zero (by decide) p,
    rank_of_ne_zero (by decide) p⟩, rank_zero 4, rank_zero 14, rank_zero 16⟩
  refine ⟨rank_of_ne_zero hw p, one_le_rank w hp, rank_le_of_ne_zero hw hlt, fun q => ?_, fun hodd => ?_, fun htop => ?_⟩
  · rw [rank_of_ne_zero hw, rank_of_ne_zero hw]
  · exact (rank_eq_succ_iff w (by omega)).2 hodd
  · have hwidth : 32 - p = 31 - p + 1 := by omega
    rw [hwidth] at hlt ⊢
    exact (rank_eq_succ_iff w (by omega)).2 ((Nat.mod_eq_of_lt hlt).trans htop)

/-! ### The law of the ranks (R86) -/

/-- Of the numbers of `n` bits, `2^(n-k-1)` end in a 1 and `k` zeros. -/
theorem card_range_mod_two_pow_succ_eq {n k : Nat} (hk : k < n) :
    ((Finset.range (2 ^ n)).filter fun x => x % 2 ^ (k + 1) = 2 ^ k).card = 2 ^ (n - (k + 1)) := by
  have hlt : 2 ^ k < 2 ^ (k + 1) := Nat.pow_lt_pow_right (by decide) (Nat.lt_succ_self k)
  have hdvd : 2 ^ (k + 1) ∣ 2 ^ n := Nat.pow_dvd_pow 2 hk
  have hcount := Nat.count_modEq_card (2 ^ n) (Nat.two_pow_pos (k + 1)) (2 ^ k)
  simpa [Nat.count_eq_card_filter_range, Nat.ModEq, Nat.mod_eq_of_lt hlt, Nat.mod_eq_zero_of_dvd hdvd,
    Nat.pow_div hk (Nat.two_pow_pos 1)] using hcount

/-- A number of `32 - p` bits is its own word. -/
theorem toNat_ofNat_of_remainder {p n : Nat} (hn : n < 2 ^ (32 - p)) : (BitVec.ofNat 32 n).toNat = n :=
  Nat.mod_eq_of_lt (hn.trans_le (Nat.pow_le_pow_right (by decide) (Nat.sub_le 32 p)))

/-- `2^(32-p-r)` remainders have rank `r`, for `1 <= r <= 32 - p` (R86). -/
theorem card_rank_eq {p r : Nat} (h1 : 1 ≤ r) (hr : r ≤ 32 - p) :
    ((Finset.range (2 ^ (32 - p))).filter fun n => rank (BitVec.ofNat 32 n) p = r).card = 2 ^ (32 - p - r) := by
  obtain ⟨k, rfl⟩ := Nat.exists_eq_add_of_le' h1
  rw [← card_range_mod_two_pow_succ_eq hr]
  refine congrArg Finset.card (Finset.filter_congr fun n hn => ?_)
  rw [rank_eq_succ_iff _ hr, toNat_ofNat_of_remainder (Finset.mem_range.1 hn)]

/-- One remainder, the all-zero one, has the greatest rank (R86). -/
theorem card_rank_eq_rankMax {p : Nat} (hp : p ≤ 16) :
    ((Finset.range (2 ^ (32 - p))).filter fun n => rank (BitVec.ofNat 32 n) p = Config.rankMax p).card = 1 := by
  refine Finset.card_eq_one.2 ⟨0, Finset.ext fun n => ?_⟩
  rw [Finset.mem_filter, Finset.mem_range, Finset.mem_singleton]
  constructor
  · rintro ⟨hn, hr⟩
    have hword := toNat_ofNat_of_remainder hn
    rw [rank_eq_rankMax_iff hp (hword.symm ▸ hn)] at hr
    rw [← hword, hr, BitVec.toNat_zero]
  · rintro rfl
    exact ⟨Nat.two_pow_pos _, rank_zero p⟩

/-- Settles O18: the all-zero remainder has rank `33 - p` and no other does; the rest are counted by the zeros they end
in (`rank_eq_succ_iff`, `card_range_mod_two_pow_succ_eq`). -/
theorem ranksFollowTheGeometricLaw : Obligations.RanksFollowTheGeometricLaw := by
  unfold Obligations.RanksFollowTheGeometricLaw
  refine fun p h4 hp => ⟨fun w hlt => ⟨rfl, one_le_rank w hp, ?_, by omega⟩, fun r => card_rank_eq, card_rank_eq_rankMax hp⟩
  by_cases hw : w = 0#32
  · exact hw ▸ le_rfl
  · exact (rank_le_of_ne_zero hw hlt).trans (by omega)

end Sys2Proof.Machine
end

section
/-! PROOFS. The statements of 41_register_bank.md about the bank itself: `UPDATE` (R90, R91) and `COUNTZERO` (R92). -/

namespace Sys2Proof.Machine

/-! ### `UPDATE` (R90, R91) -/

/-- Banks that read the same numbers are equal. -/
theorem Memory.ext_read_toNat {m m' : Memory} (hm : m.wf = true) (hm' : m'.wf = true)
    (h : ∀ k, (m.read k).toNat = (m'.read k).toNat) : m = m' :=
  Memory.ext_read hm hm' fun k => BitVec.eq_of_toNat_eq (h k)

/-- `UPDATE` lowers no entry. -/
theorem Memory.read_le_read_update {m : Memory} (hm : m.wf = true) {r : Nat} (hr : r < 32) (j k : Nat) :
    (m.read k).toNat ≤ ((m.update j r).read k).toNat := by
  rw [Memory.read_update_toNat hm hr]
  split
  · subst k; exact le_max_left _ _
  · exact le_rfl

/-- `UPDATE` with a rank that the entry has reached changes nothing. -/
theorem Memory.update_of_le {m : Memory} (hm : m.wf = true) {j r : Nat} (hj : j < 65536) (hr : r ≤ (m.read j).toNat) :
    m.update j r = m := by
  refine Memory.ext_read_toNat (Memory.wf_update hm hj) hm fun k => ?_
  rw [Memory.read_update_toNat hm (hr.trans_lt (m.read j).isLt)]
  split
  · subst k; exact max_eq_left hr
  · rfl

/-- After `UPDATE(j, r)` the entry has reached `r`. -/
theorem Memory.le_read_update_self {m : Memory} (hm : m.wf = true) {r : Nat} (hr : r < 32) (j : Nat) :
    r ≤ ((m.update j r).read j).toNat := by
  rw [Memory.read_update_toNat hm hr, if_pos rfl]
  exact le_max_right _ _

/-- Two `UPDATE`s commute: at one index because `max` does, at two because neither touches the other's entry. -/
theorem Memory.update_comm {m : Memory} (hm : m.wf = true) {j₁ j₂ r₁ r₂ : Nat} (hj₁ : j₁ < 65536) (hj₂ : j₂ < 65536)
    (hr₁ : r₁ < 32) (hr₂ : r₂ < 32) : (m.update j₁ r₁).update j₂ r₂ = (m.update j₂ r₂).update j₁ r₁ := by
  have hm₁ := Memory.wf_update (r := r₁) hm hj₁
  have hm₂ := Memory.wf_update (r := r₂) hm hj₂
  refine Memory.ext_read_toNat (Memory.wf_update hm₁ hj₂) (Memory.wf_update hm₂ hj₁) fun k => ?_
  simp only [Memory.read_update_toNat hm₁ hr₂, Memory.read_update_toNat hm₂ hr₁, Memory.read_update_toNat hm hr₁,
    Memory.read_update_toNat hm hr₂]
  rcases eq_or_ne j₁ j₂ with rfl | hj
  · split
    · simp only [if_true, max_right_comm _ r₁ r₂]
    · rfl
  · by_cases hk : k = j₁
    · simp [hk, hj]
    · simp [hk, hj.symm]

/-- Settles O21: every part is a comparison of reads; the second `UPDATE` of the same rank finds it reached
(`Memory.update_of_le`). -/
theorem updateIsMonotoneIdempotentCommutative : Obligations.UpdateIsMonotoneIdempotentCommutative := by
  unfold Obligations.UpdateIsMonotoneIdempotentCommutative
  intro m j₁ j₂ r₁ r₂ hm hr₁ hr₂
  refine ⟨Memory.read_le_read_update hm hr₁ _, fun k hk => ?_, ?_, Memory.update_comm hm j₁.isLt j₂.isLt hr₁ hr₂⟩
  · rw [Memory.read_update hm, if_neg hk]
  · exact Memory.update_of_le (Memory.wf_update hm j₁.isLt) j₁.isLt (Memory.le_read_update_self hm hr₁ _)

/-! ### `COUNTZERO` (R92) -/

/-- In canonical form no index is listed twice. -/
theorem Memory.nodup_map_fst_from {m : Memory} {lo : Nat} (hm : Memory.wfFrom lo m = true) : (m.map Prod.fst).Nodup := by
  induction m generalizing lo with
  | nil => exact List.nodup_nil
  | cons c rest ih =>
    obtain ⟨j, v⟩ := c
    obtain ⟨-, -, -, hrest⟩ := Memory.wfFrom_cons.1 hm
    refine List.nodup_cons.2 ⟨fun hmem => ?_, ih hrest⟩
    obtain ⟨⟨i, x⟩, hin, hij⟩ := List.mem_map.1 hmem
    obtain ⟨-, hlt, -, -⟩ := Memory.read_of_mem_from hrest hin
    exact absurd hij (Nat.ne_of_gt hlt)

/-- The listed indexes are those whose entry is not 0. -/
theorem Memory.mem_map_fst {m : Memory} (hm : m.wf = true) {j : Nat} :
    j ∈ m.map Prod.fst ↔ m.read j ≠ Memory.unlisted := by
  refine ⟨fun h => ?_, fun h => List.mem_map.2 ⟨_, Memory.mem_of_read h, rfl⟩⟩
  obtain ⟨⟨i, v⟩, hin, rfl⟩ := List.mem_map.1 h
  obtain ⟨hread, -, hv⟩ := Memory.read_of_mem hm hin
  exact hread ▸ hv

/-- The indexes of the listed live entries are those of the live registers that are not 0 (R23, log 6). -/
theorem Memory.toFinset_live {m : Memory} (hm : m.wf = true) (p : Nat) :
    ((m.live p).map Prod.fst).toFinset = (Finset.range (2 ^ p)).filter fun j => ¬ m.read j = 0#5 := by
  ext j
  rw [List.mem_toFinset, Memory.mem_map_fst (Memory.wf_live hm), Memory.read_live, Finset.mem_filter, Finset.mem_range]
  by_cases hj : j < 2 ^ p <;> simp [hj, Memory.unlisted]

/-- The listed live entries number the live registers that are not 0 (log 6). -/
theorem Memory.length_live {m : Memory} (hm : m.wf = true) (p : Nat) :
    (m.live p).length = ((Finset.range (2 ^ p)).filter fun j => ¬ m.read j = 0#5).card := by
  rw [← Memory.toFinset_live hm, List.toFinset_card_of_nodup (Memory.nodup_map_fst_from (Memory.wf_live hm)),
    List.length_map]

/-- A live register is 0 or listed. -/
theorem Memory.specZeros_add_length_live {m : Memory} (hm : m.wf = true) (p : Nat) :
    m.specZeros p + (m.live p).length = 2 ^ p := by
  rw [Memory.specZeros, Memory.length_live hm, Finset.card_filter_add_card_filter_not, Finset.card_range]

/-- `COUNTZERO` counts the live registers that are 0 (R92). -/
theorem Memory.countZero_eq_specZeros {m : Memory} (hm : m.wf = true) (p : Nat) : m.countZero p = m.specZeros p := by
  have := Memory.specZeros_add_length_live hm p
  unfold Memory.countZero
  omega

/-- Settles O25: the live registers that are not listed are the zeros, and there are at most `2^16` live ones. -/
theorem zeroCountCountsTheZeroRegisters : Obligations.ZeroCountCountsTheZeroRegisters := by
  unfold Obligations.ZeroCountCountsTheZeroRegisters
  intro m p hm hp
  have hle : m.countZero p ≤ 2 ^ p := Nat.sub_le _ _
  exact ⟨Memory.countZero_eq_specZeros hm p, hle, hle.trans_lt (Nat.pow_lt_pow_right (by decide) (Nat.lt_succ_of_le hp))⟩

end Sys2Proof.Machine
end

section
/-! PROOFS. The statements of 42_init.md: `INIT` (R100 to R105) and the bias constants (R102). -/

namespace Sys2Proof.Machine

/-! ### What `INIT` does (R100, R105) -/

/-- `CLEAR` as R100 states it: the entries below `2^p` read 0, the others as before. -/
theorem Memory.read_clear_of_index (m : Memory) (p j : Nat) :
    (m.clear p).read j = if j < 2 ^ p then 0#5 else m.read j := by
  simp only [Memory.read_clear, ← Nat.not_lt, ite_not, Memory.unlisted]

/-- Settles O11: a valid precision is answered by `configure`, any other operand by `raise` with itself, which 33 bits
hold. -/
theorem initConfiguresOrIsRefused : Obligations.InitConfiguresOrIsRefused := by
  unfold Obligations.InitConfiguresOrIsRefused
  intro pv s
  rw [← validPrecision_iff]
  refine ⟨fun hv => ⟨_, exec_init_of_valid hv s, rfl, toNat_extractLsb'_of_validPrecision hv,
    Memory.read_clear_of_index s.reg pv.toNat, rfl, rfl, rfl, rfl⟩, fun hv => ⟨pv.setWidth 33, ?_, ?_⟩⟩
  · exact BitVec.toNat_setWidth_of_le (by decide)
  · exact exec_init_of_invalid (Bool.eq_false_iff.2 hv) s

/-! ### The accepted operands (R101) -/

/-- A response word tells its status. -/
theorem encodeResponse_ne {st st' : Status} (h : st ≠ st') (d d' : Result) :
    encodeResponse st d ≠ encodeResponse st' d' :=
  fun he => h (by simpa using congrArg (fun r => statusOfCode (rspStatus r)) he)

/-- `INIT` answers `OK` to the valid precisions and to no other operand (R100). -/
theorem exec_init_ok_iff (pv : Operand) (s : State) :
    (∃ t, exec (.init pv) s = .next t ∧ t.rsp = some (encodeResponse .ok 0#33)) ↔ validPrecision pv = true := by
  refine ⟨fun ⟨t, he, hr⟩ => ?_, fun hv => ⟨_, exec_init_of_valid hv s, rfl⟩⟩
  rcases execInit_next he with ⟨hv, -⟩ | ⟨-, rfl⟩
  · exact hv
  · exact absurd (Option.some.inj hr) (encodeResponse_ne (by decide) _ _)

/-- The valid precisions, listed: 4, 5, ..., 16 (R101). -/
theorem validPrecision_iff_mem {pv : Operand} :
    validPrecision pv = true ↔ pv ∈ (List.range 13).map fun k => BitVec.ofNat 32 (k + 4) := by
  rw [validPrecision_iff, List.mem_map]
  constructor
  · rintro ⟨h4, h16⟩
    refine ⟨pv.toNat - 4, List.mem_range.2 (by omega), ?_⟩
    rw [Nat.sub_add_cancel h4, BitVec.ofNat_toNat, BitVec.setWidth_eq]
  · rintro ⟨k, hk, rfl⟩
    rw [List.mem_range] at hk
    rw [BitVec.toNat_ofNat, Nat.mod_eq_of_lt (by omega)]
    omega

/-- Settles O12: `INIT` answers `OK` to the valid precisions only, which are the thirteen listed; the five operands
named are none of them. -/
theorem initAcceptsExactlyThirteenOperands : Obligations.InitAcceptsExactlyThirteenOperands := by
  unfold Obligations.InitAcceptsExactlyThirteenOperands
  refine ⟨fun pv s => (exec_init_ok_iff pv s).trans validPrecision_iff_mem, by decide, fun pv hpv s => ?_⟩
  have hv : ∀ pv ∈ [0#32, 3#32, 17#32, 0x80000004#32, 0xFFFFFFFF#32], validPrecision pv = false := by
    simp [validPrecision, Config.pMin, Config.pMax]
  exact ⟨_, _, exec_init_of_invalid (hv pv hpv) s, rfl⟩

/-! ### A new lifetime (R104) -/

theorem State.inv_deliver {s : State} (hs : s.Inv) : s.deliver.Inv := by
  simpa [State.Inv] using hs

/-- A sequence of commands is answered the same from two states with the same architectural state (R31). -/
theorem replies_congr (ws : List CmdWord) {s t : State} (hs : s.Inv) (ht : t.Inv) (h : s.arch = t.arch) :
    replies ws s = replies ws t := by
  induction ws generalizing s t with
  | nil => rfl
  | cons w ws ih =>
    obtain ⟨s', t', hes, het, hrsp, harch⟩ := exec_arch (s := s.accept w) (t := t.accept w) (decode w) hs ht h
    obtain ⟨r, hr, -⟩ := taken_deliver_of_exec hes
    rw [replies_cons_of_exec hes hr, replies_cons_of_exec het (hrsp ▸ hr)]
    exact congrArg (r :: ·)
      (ih (State.inv_deliver (exec_inv hes hs)) (State.inv_deliver (exec_inv het ht)) (by simpa using harch))

/-- A valid `INIT` is answered `OK 0`, and what follows it as from any state in which its estimator exists with every
register 0 (R104). -/
theorem replies_init {pv : Operand} (hv : validPrecision pv = true) (ws : List CmdWord) {s t : State} (hs : s.Inv)
    (ht : t.Inv) (harch : t.arch = some (pv.extractLsb' 0 5, [])) :
    replies (encode (.init pv) :: ws) s = encodeResponse .ok 0#33 :: replies ws t := by
  have he := exec_init_of_valid hv (s.accept (encode (.init pv)))
  rw [replies_cons_of_exec (by rw [decode_encode, he]) (State.respond_rsp _ .ok 0#33)]
  refine congrArg (_ :: ·) (replies_congr ws (State.inv_deliver (exec_inv he hs)) ht ?_)
  rw [State.arch_deliver, State.arch_configure hv, harch]

/-- Settles O13: by `replies_init` both sequences go on as from the state that the `INIT` of the first block leaves. -/
theorem initForgetsTheOldLifetime : Obligations.InitForgetsTheOldLifetime := by
  unfold Obligations.InitForgetsTheOldLifetime
  intro pv ws s s' hs hs' h4 h16
  have hv : validPrecision pv = true := validPrecision_iff.2 ⟨h4, h16⟩
  have he := exec_init_of_valid hv s
  have harch := State.arch_configure hv s .ok 0#33
  have ht := exec_inv he hs
  exact ⟨(replies_init hv ws hs ht harch).trans (replies_init hv ws hs' ht harch).symm, _, he, harch⟩

/-! ### The bias constants (R102) -/

/-- The formula of `alpha(p)` from precision 7 up, in its two forms (R102). -/
theorem alpha_of_seven_le {p : Nat} (hp : 7 ≤ p) : alpha p = 7213 * 2 ^ p / (10000 * 2 ^ p + 10790) := by
  have hne : p ≠ 4 ∧ p ≠ 5 ∧ p ≠ 6 := by omega
  have hm : (0 : ℚ) < 2 ^ p := by positivity
  simp only [alpha, hne, if_false]
  field_simp
  ring

/-- From precision 7 up the ROM holds the numerator and the denominator of that fraction (R102). -/
theorem alphaNum_div_alphaDen_of_seven_le {p : Nat} (hp : 7 ≤ p) :
    (alphaNum p : ℚ) / alphaDen p = 7213 * 2 ^ p / (10000 * 2 ^ p + 10790) := by
  have hne : p ≠ 4 ∧ p ≠ 5 ∧ p ≠ 6 := by omega
  simp [alphaNum, alphaDen, hne]

/-- The ROM holds `alpha(p)` exactly (R102). -/
theorem alphaNum_div_alphaDen {p : Nat} (hp : 4 ≤ p) : (alphaNum p : ℚ) / alphaDen p = alpha p := by
  obtain rfl | rfl | rfl | h7 : p = 4 ∨ p = 5 ∨ p = 6 ∨ 7 ≤ p := by omega
  · norm_num [alphaNum, alphaDen, alpha]
  · norm_num [alphaNum, alphaDen, alpha]
  · norm_num [alphaNum, alphaDen, alpha]
  · rw [alphaNum_div_alphaDen_of_seven_le h7, alpha_of_seven_le h7]

/-- Settles O14: the thirteen rows by evaluation, and `alphaNum_div_alphaDen` with the formula from precision 7 up. -/
theorem biasConstantsAreTheSpecFractions : Obligations.BiasConstantsAreTheSpecFractions := by
  unfold Obligations.BiasConstantsAreTheSpecFractions
  exact ⟨by decide, fun p h4 _ => ⟨alphaNum_div_alphaDen h4, alpha_of_seven_le⟩⟩

end Sys2Proof.Machine
end

section
/-! PROOFS. The statements of 43_add.md: `ADD` (R110 to R112, R114) and the pseudo-command `ADDV` (R113). -/

namespace Sys2Proof.Machine

/-! ### What `ADD` does (R110, R114) -/

/-- What `ADD` leaves in every entry of a configured block: the maximum with the rank at the hash's index, and every other
entry as before (R110). -/
theorem read_of_exec_add {h : Operand} {s t : State} (hs : s.Inv) (hc : s.cfg = true) (he : exec (.add h) s = .next t)
    (j : Nat) : (t.reg.read j).toNat =
      if j = (splitIndex h s.p.toNat).toNat then max (s.reg.read j).toNat (rank (splitRemainder h s.p.toNat) s.p.toNat)
      else (s.reg.read j).toNat := by
  obtain ⟨hwf, hcfg⟩ := hs
  obtain ⟨h4, h16, -⟩ := hcfg hc
  cases he.symm.trans (exec_add_of_configured h hc)
  rw [State.respond_reg, State.update_reg, Memory.read_update_toNat hwf (rank_splitRemainder_lt h h16 h4)]
  split
  · subst j; rfl
  · rfl

/-- After `ADD` the entry at the hash's index has kept its old value or more, and reached the rank. -/
theorem le_read_of_exec_add {h : Operand} {s t : State} (hs : s.Inv) (hc : s.cfg = true)
    (he : exec (.add h) s = .next t) :
    (s.reg.read (splitIndex h s.p.toNat).toNat).toNat ≤ (t.reg.read (splitIndex h s.p.toNat).toNat).toNat ∧
      rank (splitRemainder h s.p.toNat) s.p.toNat ≤ (t.reg.read (splitIndex h s.p.toNat).toNat).toNat := by
  rw [read_of_exec_add hs hc he, if_pos rfl]
  exact ⟨le_max_left _ _, le_max_right _ _⟩

/-- `ADD` writes neither `CFG` nor `P`. -/
theorem exec_add_keeps {h : Operand} {s t : State} (he : exec (.add h) s = .next t) : t.cfg = s.cfg ∧ t.p = s.p := by
  rcases execAdd_next he with ⟨-, rfl⟩ | ⟨-, rfl⟩ <;> exact ⟨rfl, rfl⟩

/-- Settles O19: a configured `ADD` answers `UPDATE` of the bank, read by `read_of_exec_add`; an unconfigured one raises. -/
theorem addRaisesOneRegisterToTheRank : Obligations.AddRaisesOneRegisterToTheRank := by
  unfold Obligations.AddRaisesOneRegisterToTheRank
  intro h s hs
  refine ⟨fun hc => ?_, fun hc => exec_add_of_unconfigured h hc⟩
  have he := exec_add_of_configured h hc
  have hread := read_of_exec_add hs hc he
  exact ⟨_, he, hread⟩

/-- Settles O20: the new value is at least the rank, which is at least 1, and the invariant after the `ADD` bounds it. -/
theorem addStaysInsideItsBounds : Obligations.AddStaysInsideItsBounds := by
  unfold Obligations.AddStaysInsideItsBounds
  intro h s t hs hc he
  obtain ⟨hct, hpt⟩ := exec_add_keeps he
  obtain ⟨-, h16, -⟩ := hs.2 hc
  obtain ⟨hwf, hcfg⟩ := exec_inv he hs
  obtain ⟨-, -, hb⟩ := hcfg (hct.trans hc)
  rw [Memory.bounded_iff hwf, hpt] at hb
  have hlt := splitIndex_lt h h16
  obtain ⟨hold, hrank⟩ := le_read_of_exec_add hs hc he
  refine ⟨hlt, (one_le_rank _ h16).trans hrank, hb _ hlt, hold, fun j hj => BitVec.eq_of_toNat_eq ?_, hct, hpt⟩
  rw [read_of_exec_add hs hc he, if_neg hj]

/-! ### A repeated `ADD` (R111) -/

/-- `ADD` answers `OK 0` and writes nothing once the entry has reached the rank (R111). -/
theorem exec_add_of_rank_le {h : Operand} {s : State} (hs : s.Inv) (hc : s.cfg = true)
    (hr : rank (splitRemainder h s.p.toNat) s.p.toNat ≤ (s.reg.read (splitIndex h s.p.toNat).toNat).toNat) :
    exec (.add h) s = .next (s.respond .ok 0#33) := by
  obtain ⟨hwf, -⟩ := hs
  rw [exec_add_of_configured h hc, State.update, Memory.update_of_le hwf (splitIndex h s.p.toNat).isLt hr]

/-- The greatest rank at an index is at most `n` exactly if every rank there is: it depends on the set of hashes only. -/
theorem greatestRank_le_iff {hs : List Operand} {p j n : Nat} :
    greatestRank hs p j ≤ n ↔ ∀ h ∈ hs, (splitIndex h p).toNat = j → rank (splitRemainder h p) p ≤ n := by
  induction hs with
  | nil => simp
  | cons h hs ih =>
    rw [greatestRank_cons, List.forall_mem_cons, ← ih]
    split
    · simp [*]
    · simp [*]

/-- Within a lifetime the entry at an added hash's index has reached its rank. -/
theorem rank_le_read_serve {ws : List CmdWord} {s : State} {h : Operand} (hs : s.Inv) (hc : s.cfg = true)
    (hws : ∀ w ∈ ws, startsLifetime w = false) (hh : h ∈ addedHashes ws) :
    rank (splitRemainder h s.p.toNat) s.p.toNat ≤
      ((serve ws s).reg.read (splitIndex h s.p.toNat).toNat).toNat := by
  obtain ⟨-, -, hread⟩ := serve_lifetime ws s hs hc hws
  rw [hread]
  exact le_max_of_le_right (greatestRank_le_iff.1 le_rfl h hh rfl)

theorem startsLifetime_encode_add (h : Operand) : startsLifetime (encode (.add h)) = false := by
  rw [startsLifetime, decode_encode]

/-- Settles O22: the lifetime leaves the entry at the rank of `h` or above, so the second `ADD h` finds it reached. -/
theorem addIsIdempotentInALifetime : Obligations.AddIsIdempotentInALifetime := by
  unfold Obligations.AddIsIdempotentInALifetime
  refine ⟨fun h s hs hc hr => exec_add_of_rank_le hs hc hr, ?_⟩
  rintro h ws s u hs hc hws rfl
  have hall : ∀ w ∈ encode (.add h) :: ws, startsLifetime w = false :=
    List.forall_mem_cons.2 ⟨startsLifetime_encode_add h, hws⟩
  have hmem : h ∈ addedHashes (encode (.add h) :: ws) := by
    rw [addedHashes_cons_of_add (decode_encode _)]; exact List.mem_cons_self
  obtain ⟨hcu, hpu, -⟩ := serve_lifetime _ s hs hc hall
  have hr := rank_le_read_serve hs hc hall hmem
  rw [← hpu] at hr
  exact ⟨_, exec_add_of_rank_le (serve_inv _ hs) hcu hr, rfl, rfl, rfl, rfl, rfl⟩

/-! ### The set of hashes (R112) -/

theorem addedHashes_map_add (hs : List Operand) : addedHashes (hs.map fun h => encode (.add h)) = hs := by
  induction hs with
  | nil => rfl
  | cons h hs ih => rw [List.map_cons, addedHashes_cons_of_add (decode_encode _), ih]

/-- Lists with the same set of hashes have the same greatest ranks. -/
theorem greatestRank_congr {hs hs' : List Operand} (h : ∀ x, x ∈ hs ↔ x ∈ hs') (p j : Nat) :
    greatestRank hs p j = greatestRank hs' p j :=
  eq_of_forall_ge_iff fun n => by simp only [greatestRank_le_iff, h]

/-- What a list of `ADD`s leaves in every entry: the maximum with the greatest rank added there (R112). -/
theorem read_serve_adds (hs : List Operand) {s : State} (hi : s.Inv) (hc : s.cfg = true) (j : Nat) :
    ((serve (hs.map fun h => encode (.add h)) s).reg.read j).toNat =
      max (s.reg.read j).toNat (greatestRank hs s.p.toNat j) := by
  obtain ⟨-, -, hread⟩ := serve_lifetime (hs.map fun h => encode (.add h)) s hi hc
    (List.forall_mem_map.2 fun h _ => startsLifetime_encode_add h)
  rw [hread, addedHashes_map_add]

/-- Settles O23: entry by entry both banks hold the maximum over the same set of ranks. -/
theorem addsDependOnlyOnTheSetOfHashes : Obligations.AddsDependOnlyOnTheSetOfHashes := by
  unfold Obligations.AddsDependOnlyOnTheSetOfHashes
  intro hs hs' s hi hc hset
  obtain ⟨hwf, -⟩ := serve_inv (hs.map fun h => encode (.add h)) hi
  obtain ⟨hwf', -⟩ := serve_inv (hs'.map fun h => encode (.add h)) hi
  refine Memory.ext_read_toNat hwf hwf' fun j => ?_
  rw [read_serve_adds hs hi hc, read_serve_adds hs' hi hc, greatestRank_congr hset]

/-! ### Hashed values (R113) -/

/-- Settles O54: the first `ADD` raises the entry to the rank of the hash, so the second finds it reached. -/
theorem hashedValuesAddOnce : Obligations.HashedValuesAddOnce := by
  unfold Obligations.HashedValuesAddOnce
  intro Value hash v v' s t u hs hc hv ht hu
  obtain ⟨hct, hpt⟩ := exec_add_keeps ht
  obtain ⟨-, hr⟩ := le_read_of_exec_add hs hc ht
  rw [← hpt, hv] at hr
  cases hu.symm.trans (exec_add_of_rank_le (exec_inv ht hs) (hct.trans hc) hr)
  exact ⟨rfl, rfl⟩

end Sys2Proof.Machine
end

section
/-! PROOFS. The statements of 44_estimate.md: the harmonic sum and the raw estimate (R121 to R124, R128, R135). -/

namespace Sys2Proof.Machine

/-! ### Sums over the live registers (R121, R135) -/

/-- The listed live entries are the live registers that are not 0, so a sum over the former is one over the latter. -/
theorem Memory.sum_map_live {m : Memory} (hm : m.wf = true) (p : Nat) (f : Entry → ℕ) :
    ((m.live p).map fun c => f c.2).sum = ∑ j ∈ Finset.range (2 ^ p) with ¬ m.read j = 0#5, f (m.read j) := by
  have hread : ∀ c ∈ m.live p, f c.2 = f (m.read c.1) := by
    rintro ⟨j, v⟩ hc
    obtain ⟨hv, -, -⟩ := Memory.read_of_mem hm (List.mem_of_mem_filter hc)
    rw [hv]
  rw [← Memory.toFinset_live hm, List.sum_toFinset _ (Memory.nodup_map_fst_from (Memory.wf_live hm)), List.map_map]
  exact congrArg List.sum (List.map_congr_left hread)

/-- A sum over the live registers is taken over the listed ones, with the others as zeros (log 6). -/
theorem Memory.sum_read {m : Memory} (hm : m.wf = true) (p : Nat) (f : Entry → ℕ) :
    ∑ j ∈ Finset.range (2 ^ p), f (m.read j) = m.countZero p * f 0#5 + ((m.live p).map fun c => f c.2).sum := by
  have hzero : ∑ j ∈ Finset.range (2 ^ p) with m.read j = 0#5, f (m.read j) = m.countZero p * f 0#5 := by
    rw [Memory.countZero_eq_specZeros hm, Memory.specZeros, Finset.card_eq_sum_ones, Finset.sum_mul]
    refine Finset.sum_congr rfl fun j hj => ?_
    rw [(Finset.mem_filter.1 hj).2, Nat.one_mul]
  rw [Memory.sum_map_live hm, ← hzero, Finset.sum_filter_add_sum_filter_not]

/-- `Sint` as R121 defines it. -/
theorem Memory.harmonicSum_eq_sum {m : Memory} (hm : m.wf = true) (p : Nat) :
    m.harmonicSum p = ∑ j ∈ Finset.range (2 ^ p), 2 ^ (29 - (m.read j).toNat) :=
  (Memory.sum_read hm p fun v => 2 ^ (29 - v.toNat)).symm

/-- `Sint = 2^29 S`: no term is rounded while the live registers hold at most 29 (R121). -/
theorem Memory.cast_harmonicSum {m : Memory} (hm : m.wf = true) {p : Nat}
    (hle : ∀ j, j < 2 ^ p → (m.read j).toNat ≤ 29) : (m.harmonicSum p : ℚ) = 2 ^ 29 * m.specSum p := by
  rw [Memory.harmonicSum_eq_sum hm, Memory.specSum, Finset.mul_sum, Nat.cast_sum]
  refine Finset.sum_congr rfl fun j hj => ?_
  rw [Nat.cast_pow, Nat.cast_ofNat, pow_sub₀ _ two_ne_zero (hle j (Finset.mem_range.1 hj)), one_div, inv_pow]

/-- Settles O26: the sum over the listed entries is the one over the live registers, term by term `2^29 2^-REG[j]`. -/
theorem harmonicSumIsTheSumOverLiveRegisters : Obligations.HarmonicSumIsTheSumOverLiveRegisters := by
  unfold Obligations.HarmonicSumIsTheSumOverLiveRegisters
  intro m p hm _ hle
  refine ⟨Memory.harmonicSum_eq_sum hm p, Memory.cast_harmonicSum hm hle, fun j _ hj => ?_⟩
  rw [hj]
  exact ⟨pow_zero _, rfl⟩

/-! ### Bounds of the harmonic sum (R122) -/

theorem Memory.harmonicSum_pos {m : Memory} (hm : m.wf = true) (p : Nat) : 0 < m.harmonicSum p := by
  rw [Memory.harmonicSum_eq_sum hm]
  exact Finset.sum_pos (fun j _ => by positivity) (Finset.nonempty_range_iff.2 (by positivity))

/-- Greater registers have a smaller sum. -/
theorem Memory.harmonicSum_anti {m m' : Memory} (hm : m.wf = true) (hm' : m'.wf = true) {p : Nat}
    (h : ∀ j, j < 2 ^ p → (m.read j).toNat ≤ (m'.read j).toNat) : m'.harmonicSum p ≤ m.harmonicSum p := by
  rw [Memory.harmonicSum_eq_sum hm, Memory.harmonicSum_eq_sum hm']
  exact Finset.sum_le_sum fun j hj =>
    Nat.pow_le_pow_right two_pos (Nat.sub_le_sub_left (h j (Finset.mem_range.1 hj)) 29)

/-- Every term is at most `2^29`. -/
theorem Memory.harmonicSum_le {m : Memory} (hm : m.wf = true) (p : Nat) : m.harmonicSum p ≤ 2 ^ (p + 29) := by
  have hterm : ∀ j ∈ Finset.range (2 ^ p), 2 ^ (29 - (m.read j).toNat) ≤ 2 ^ 29 :=
    fun j _ => Nat.pow_le_pow_right two_pos (Nat.sub_le 29 _)
  have hsum := Finset.sum_le_card_nsmul _ _ _ hterm
  rwa [← Memory.harmonicSum_eq_sum hm, Finset.card_range, smul_eq_mul, ← pow_add] at hsum

/-- `2^P` terms of at least `2^(P-4)` each. -/
theorem two_pow_mul_two_pow_sub {p : Nat} (h4 : 4 ≤ p) : 2 ^ p * 2 ^ (p - 4) = 2 ^ (2 * p - 4) := by
  rw [← pow_add]
  congr 1
  omega

/-- The least term of the sum at precision `p`, that of a register at `33 - p` (R122). -/
theorem two_pow_sub_le {p r : Nat} (h16 : p ≤ 16) (hr : r ≤ 33 - p) : 2 ^ (p - 4) ≤ 2 ^ (29 - r) :=
  Nat.pow_le_pow_right two_pos (by omega)

theorem Memory.le_harmonicSum {m : Memory} (hm : m.wf = true) {p : Nat} (h4 : 4 ≤ p) (h16 : p ≤ 16)
    (hle : ∀ j, j < 2 ^ p → (m.read j).toNat ≤ 33 - p) : 2 ^ (2 * p - 4) ≤ m.harmonicSum p := by
  have hsum := Finset.card_nsmul_le_sum _ _ _ fun j hj => two_pow_sub_le h16 (hle j (Finset.mem_range.1 hj))
  rwa [← Memory.harmonicSum_eq_sum hm, Finset.card_range, smul_eq_mul, two_pow_mul_two_pow_sub h4] at hsum

theorem alphaDen_pos (p : Nat) : 0 < alphaDen p := by
  unfold alphaDen
  split <;> positivity

/-- What the invariant says of a configured block, with the bound that the harmonic sum needs (R21, R25 (a)). -/
theorem State.live_le {s : State} (hs : s.Inv) (hc : s.cfg = true) :
    s.reg.wf = true ∧ 4 ≤ s.p.toNat ∧ s.p.toNat ≤ 16 ∧
      (∀ j, j < 2 ^ s.p.toNat → (s.reg.read j).toNat ≤ 33 - s.p.toNat) ∧
      ∀ j, j < 2 ^ s.p.toNat → (s.reg.read j).toNat ≤ 29 := by
  obtain ⟨hwf, hcfg⟩ := hs
  obtain ⟨h4, h16, hb⟩ := hcfg hc
  have hle := (Memory.bounded_iff hwf _).1 hb
  exact ⟨hwf, h4, h16, hle, fun j hj => (hle j hj).trans (Nat.sub_le_sub_left h4 33)⟩

/-- Settles O27: `2^P` terms, each between `2^(P-4)` and `2^29`. -/
theorem harmonicSumFitsItsAccumulator : Obligations.HarmonicSumFitsItsAccumulator := by
  unfold Obligations.HarmonicSumFitsItsAccumulator
  intro s hs hc
  obtain ⟨hwf, h4, h16, hle, -⟩ := State.live_le hs hc
  have hup := Memory.harmonicSum_le hwf s.p.toNat
  have h45 : 2 ^ (s.p.toNat + 29) ≤ 2 ^ 45 := Nat.pow_le_pow_right two_pos (by omega)
  exact ⟨Memory.le_harmonicSum hwf h4 h16 hle, hup, h45, (hup.trans h45).trans_lt (by decide),
    Nat.mul_pos (alphaDen_pos _) (Memory.harmonicSum_pos hwf _)⟩

/-! ### `E` as a quotient of integers (R123, R128) -/

/-- `E = (ANUM m^2 2^29) / (ADEN Sint)`, over the rationals (R123, R128). -/
theorem Memory.specRaw_eq_div {m : Memory} (hm : m.wf = true) {p : Nat} (h4 : 4 ≤ p)
    (hle : ∀ j, j < 2 ^ p → (m.read j).toNat ≤ 29) :
    m.specRaw p = ((alphaNum p * (2 ^ p) ^ 2 * 2 ^ 29 : ℕ) : ℚ) / ((alphaDen p * m.harmonicSum p : ℕ) : ℚ) := by
  have hS : m.specSum p = m.harmonicSum p / 2 ^ 29 := by
    rw [Memory.cast_harmonicSum hm hle]
    exact (mul_div_cancel_left₀ _ (by norm_num)).symm
  rw [Memory.specRaw, hS, ← alphaNum_div_alphaDen h4, div_mul_eq_mul_div, div_div_div_eq]
  simp only [Nat.cast_mul, Nat.cast_pow, Nat.cast_ofNat]

/-- The quotient of `EST` is the integer part of `E` (R123). -/
theorem Memory.rawEstimate_eq_floor {m : Memory} (hm : m.wf = true) {p : Nat} (h4 : 4 ≤ p)
    (hle : ∀ j, j < 2 ^ p → (m.read j).toNat ≤ 29) :
    (rawEstimate p (m.harmonicSum p) : ℤ) = ⌊m.specRaw p⌋ := by
  rw [Memory.specRaw_eq_div hm h4 hle]
  exact (Rat.floor_natCast_div_natCast _ _).symm

theorem alpha_pos {p : Nat} (h4 : 4 ≤ p) : 0 < alpha p := by
  rw [← alphaNum_div_alphaDen h4]
  have hden : (0 : ℚ) < alphaDen p := Nat.cast_pos.2 (alphaDen_pos p)
  have hnum : 0 < alphaNum p := by unfold alphaNum; split_ifs <;> positivity
  positivity

theorem Memory.specSum_pos (m : Memory) (p : Nat) : 0 < m.specSum p :=
  Finset.sum_pos (fun j _ => by positivity) (Finset.nonempty_range_iff.2 (by positivity))

/-- `S` is at most `m`, as every term is at most 1. -/
theorem Memory.specSum_le (m : Memory) (p : Nat) : m.specSum p ≤ 2 ^ p := by
  have hsum := Finset.sum_le_card_nsmul (Finset.range (2 ^ p)) (fun j => (1 / 2 : ℚ) ^ (m.read j).toNat) 1
    fun j _ => pow_le_one₀ (by norm_num) (by norm_num)
  simpa [Memory.specSum] using hsum

/-- `E >= alpha m` (R123). -/
theorem Memory.le_specRaw (m : Memory) {p : Nat} (h4 : 4 ≤ p) : alpha p * 2 ^ p ≤ m.specRaw p := by
  have ha := alpha_pos h4
  rw [Memory.specRaw, le_div_iff₀ (Memory.specSum_pos m p), sq, ← mul_assoc]
  gcongr
  exact Memory.specSum_le m p

theorem alphaNum_le {p : Nat} (h16 : p ≤ 16) : alphaNum p ≤ 7213 * 2 ^ 16 := by
  have hpow : 2 ^ p ≤ 2 ^ 16 := Nat.pow_le_pow_right two_pos h16
  unfold alphaNum
  split_ifs <;> omega

theorem alphaDen_le {p : Nat} (h16 : p ≤ 16) : alphaDen p ≤ 10000 * 2 ^ 16 + 10790 := by
  have hpow : 2 ^ p ≤ 2 ^ 16 := Nat.pow_le_pow_right two_pos h16
  unfold alphaDen
  split_ifs <;> omega

/-- The dividend of `EST` fits 90 bits (R128). -/
theorem dividend_lt {p : Nat} (h16 : p ≤ 16) : alphaNum p * (2 ^ p) ^ 2 * 2 ^ 29 < 2 ^ 90 := by
  have hm : 2 ^ p ≤ 2 ^ 16 := Nat.pow_le_pow_right two_pos h16
  calc alphaNum p * (2 ^ p) ^ 2 * 2 ^ 29 ≤ 7213 * 2 ^ 16 * (2 ^ 16) ^ 2 * 2 ^ 29 := by
        gcongr
        exact alphaNum_le h16
    _ < 2 ^ 90 := by norm_num

/-- Settles O29: `E` is the quotient of the two integers that `EST` divides, and `S` is at most `m`. -/
theorem rawEstimateIsTheFloorOfE : Obligations.RawEstimateIsTheFloorOfE := by
  unfold Obligations.RawEstimateIsTheFloorOfE
  intro s hs hc
  obtain ⟨hwf, h4, h16, -, hle⟩ := State.live_le hs hc
  exact ⟨Memory.rawEstimate_eq_floor hwf h4 hle, Memory.le_specRaw _ h4, dividend_lt h16⟩

/-- Settles O30: greater registers have a smaller sum, by which `E` and its integer part divide. -/
theorem rawEstimateGrowsWithTheRegisters : Obligations.RawEstimateGrowsWithTheRegisters := by
  unfold Obligations.RawEstimateGrowsWithTheRegisters
  intro m m' p hm hm' h4 _ h
  have hle' : ∀ j, j < 2 ^ p → (m'.read j).toNat ≤ 29 := fun j hj => (h j hj).2
  have hle : ∀ j, j < 2 ^ p → (m.read j).toNat ≤ 29 := fun j hj => (h j hj).1.trans (hle' j hj)
  have hanti := Memory.harmonicSum_anti hm hm' fun j hj => (h j hj).1
  have hpos : 0 < alphaDen p * m'.harmonicSum p := Nat.mul_pos (alphaDen_pos p) (Memory.harmonicSum_pos hm' p)
  have hdiv := Nat.mul_le_mul_left (alphaDen p) hanti
  refine ⟨hanti, ?_, Nat.div_le_div_left hdiv hpos⟩
  rw [Memory.specRaw_eq_div hm h4 hle, Memory.specRaw_eq_div hm' h4 hle']
  exact div_le_div_of_nonneg_left (Nat.cast_nonneg _) (Nat.cast_pos.2 hpos) (Nat.cast_le.2 hdiv)

/-! ### The small-range test (R124) -/

theorem small_iff {p sint : Nat} :
    small p sint = true ↔ 2 * alphaNum p * 2 ^ p * 2 ^ 29 ≤ 5 * alphaDen p * sint := by
  rw [small, decide_eq_true_eq]

/-- The integer test compares `S` with `alpha m / 2.5` (R124). -/
theorem Memory.small_iff_specSum {m : Memory} (hm : m.wf = true) {p : Nat} (h4 : 4 ≤ p)
    (hle : ∀ j, j < 2 ^ p → (m.read j).toNat ≤ 29) :
    small p (m.harmonicSum p) = true ↔ alpha p * 2 ^ p / 2.5 ≤ m.specSum p := by
  have hden : (0 : ℚ) < alphaDen p := Nat.cast_pos.2 (alphaDen_pos p)
  rw [small_iff, ← Nat.cast_le (α := ℚ)]
  push_cast
  rw [Memory.cast_harmonicSum hm hle, ← alphaNum_div_alphaDen h4, div_mul_eq_mul_div, div_div,
    div_le_iff₀ (by positivity)]
  constructor <;> intro h <;> linarith

/-- `E <= 2.5 m`, with `S` on the other side (R124). -/
theorem Memory.specRaw_le_iff (m : Memory) (p : Nat) :
    m.specRaw p ≤ 2.5 * 2 ^ p ↔ alpha p * 2 ^ p / 2.5 ≤ m.specSum p := by
  have hpow : (0 : ℚ) < 2 ^ p := by positivity
  rw [Memory.specRaw, div_le_iff₀ (Memory.specSum_pos m p), div_le_iff₀ (by norm_num), sq, ← mul_assoc,
    mul_right_comm (2.5 : ℚ), mul_le_mul_iff_left₀ hpow, mul_comm (2.5 : ℚ)]

/-- The integer test compares `E` with `2.5 m` (R124). -/
theorem Memory.small_iff_specRaw {m : Memory} (hm : m.wf = true) {p : Nat} (h4 : 4 ≤ p)
    (hle : ∀ j, j < 2 ^ p → (m.read j).toNat ≤ 29) :
    small p (m.harmonicSum p) = true ↔ m.specRaw p ≤ 2.5 * 2 ^ p :=
  (Memory.small_iff_specSum hm h4 hle).trans (Memory.specRaw_le_iff m p).symm

/-- The greater side of the comparison fits 78 bits (R124). -/
theorem Memory.threshold_lt {m : Memory} (hm : m.wf = true) {p : Nat} (h16 : p ≤ 16) :
    5 * alphaDen p * m.harmonicSum p < 2 ^ 78 := by
  have hsum : m.harmonicSum p ≤ 2 ^ 45 :=
    (Memory.harmonicSum_le hm p).trans (Nat.pow_le_pow_right two_pos (Nat.add_le_add_right h16 29))
  calc 5 * alphaDen p * m.harmonicSum p ≤ 5 * (10000 * 2 ^ 16 + 10790) * 2 ^ 45 := by
        gcongr
        exact alphaDen_le h16
    _ < 2 ^ 78 := by norm_num

/-- Settles O28: with `Sint = 2^29 S` and `alpha = ANUM / ADEN` the three comparisons are one, multiplied out. -/
theorem smallRangeTestIsExact : Obligations.SmallRangeTestIsExact := by
  unfold Obligations.SmallRangeTestIsExact
  intro s hs hc
  obtain ⟨hwf, h4, h16, -, hle⟩ := State.live_le hs hc
  exact ⟨Memory.small_iff_specRaw hwf h4 hle, Memory.small_iff_specSum hwf h4 hle, small_iff,
    Memory.threshold_lt hwf h16⟩

end Sys2Proof.Machine
end

section
/-! PROOFS. The statements of 44_estimate.md: the error of the model's logarithm (R127 (e), log 7). -/

namespace Sys2Proof.Machine

/-! ### The error of the series (log 7) -/

/-- A quotient rounded down, over the reals. -/
theorem cast_natDiv_bounds (n d : ℕ) : ((n / d : ℕ) : ℝ) ≤ n / d ∧ (n / d : ℝ) < (n / d : ℕ) + 1 := by
  rw [← Nat.floor_div_eq_div (K := ℝ)]
  exact ⟨Nat.floor_le (by positivity), Nat.lt_floor_add_one _⟩

/-- A product `t a / b` rounded down, where `t` is itself at most 2 below `x`. -/
theorem natDiv_bounds {t a b : ℕ} {x : ℝ} (hlo : t ≤ x) (hhi : x ≤ t + 2) :
    ((t * a / b : ℕ) : ℝ) ≤ x * (a / b) ∧ x * (a / b) ≤ (t * a / b : ℕ) + 1 + 2 * (a / b) := by
  have hz : (0 : ℝ) ≤ a / b := by positivity
  obtain ⟨hle, hlt⟩ := cast_natDiv_bounds (t * a) b
  rw [Nat.cast_mul, mul_div_assoc] at hle hlt
  have hx := mul_le_mul_of_nonneg_right hhi hz
  rw [add_mul] at hx
  exact ⟨hle.trans (mul_le_mul_of_nonneg_right hlo hz), by linarith⟩

/-- Each of the `n` terms is rounded down by less than 3 while `a2 / b2` is at most 1/9: the term before it by less than 2. -/
theorem atanhTerms_bounds {a2 b2 : ℕ} (hb : 0 < b2) (hab : 9 * a2 ≤ b2) (n k t : ℕ) {x : ℝ} (hlo : t ≤ x)
    (hhi : x ≤ t + 2) :
    (atanhTerms a2 b2 n k t : ℝ) ≤ ∑ i ∈ Finset.range n, x * (a2 / b2 : ℝ) ^ i / (2 * (k + i : ℕ) + 1) ∧
      ∑ i ∈ Finset.range n, x * (a2 / b2 : ℝ) ^ i / (2 * (k + i : ℕ) + 1) ≤ atanhTerms a2 b2 n k t + 3 * n := by
  induction n generalizing k t x with
  | zero => simp [atanhTerms]
  | succ n ih =>
    have hz : (a2 / b2 : ℝ) ≤ 1 / 9 := by
      rw [div_le_iff₀ (by positivity)]
      have : (9 * a2 : ℝ) ≤ b2 := by exact_mod_cast hab
      linarith
    obtain ⟨hlo', hhi'⟩ := natDiv_bounds (a := a2) (b := b2) hlo hhi
    obtain ⟨hle, hge⟩ := ih (k + 1) (t * a2 / b2) hlo' (by linarith)
    obtain ⟨hq, hq'⟩ := natDiv_bounds (a := 1) (b := 2 * k + 1) hlo hhi
    have hone : (1 / (2 * k + 1) : ℝ) ≤ 1 := by
      rw [div_le_one (by positivity)]
      have : (0 : ℝ) ≤ k := k.cast_nonneg
      linarith
    have hsum : ∑ i ∈ Finset.range (n + 1), x * (a2 / b2 : ℝ) ^ i / (2 * (k + i : ℕ) + 1) =
        (∑ i ∈ Finset.range n, x * (a2 / b2) * (a2 / b2 : ℝ) ^ i / (2 * (k + 1 + i : ℕ) + 1)) +
          x * (1 / (2 * k + 1)) := by
      rw [Finset.sum_range_succ']
      congr 1
      · refine Finset.sum_congr rfl fun i _ => ?_
        rw [pow_succ', ← mul_assoc, Nat.add_right_comm k 1 i, ← Nat.add_assoc k i 1]
      · rw [pow_zero, mul_one, Nat.add_zero, mul_one_div]
    rw [hsum]
    push_cast [atanhTerms] at hq hq' hle hge ⊢
    rw [Nat.mul_one] at hq hq'
    constructor <;> linarith

/-- `1/2 ln((b + a) / (b - a))` is its series in `a / b`, cut after `n` terms, but for what is left out. -/
theorem halfLog_bounds {a b : ℝ} (ha : 0 ≤ a) (hab : a < b) (n : ℕ) :
    ∑ i ∈ Finset.range n, (a / b) ^ (2 * i + 1) / (2 * i + 1) ≤ 1 / 2 * Real.log ((b + a) / (b - a)) ∧
      1 / 2 * Real.log ((b + a) / (b - a)) ≤
        ∑ i ∈ Finset.range n, (a / b) ^ (2 * i + 1) / (2 * i + 1) + (a / b) ^ (2 * n + 1) / (1 - (a / b) ^ 2) := by
  have hb : 0 < b := ha.trans_lt hab
  have hz : 0 ≤ a / b := div_nonneg ha hb.le
  have hz1 : a / b < 1 := (div_lt_one hb).2 hab
  have hratio : (b + a) / (b - a) = (1 + a / b) / (1 - a / b) := by
    rw [one_add_div hb.ne', one_sub_div hb.ne', div_div_div_cancel_right₀ hb.ne']
  rw [hratio]
  exact ⟨Real.sum_range_le_log_div hz hz1 n, Real.log_div_le_sum_range_add hz hz1 n⟩

/-- What 18 terms leave out of the series is less than one unit of `2^-57`. -/
theorem seriesTail_le {z : ℝ} (hz : 0 ≤ z) (hz3 : z ≤ 1 / 3) : 2 ^ 57 * (z ^ (2 * 18 + 1) / (1 - z ^ 2)) ≤ 1 := by
  have hpow : z ^ (2 * 18 + 1) ≤ 1 / 2 ^ 58 := (pow_le_pow_left₀ hz hz3 _).trans (by norm_num)
  have hsq : z ^ 2 ≤ 1 / 9 := (pow_le_pow_left₀ hz hz3 2).trans_eq (by norm_num)
  rw [← mul_div_assoc, div_le_one (by linarith)]
  norm_num at hpow ⊢
  linarith

/-- `lnPart a b` is `2^56 ln((b + a) / (b - a))`, rounded down by at most 109. -/
theorem lnPart_bounds {a b : ℕ} (hb : 0 < b) (hab : 3 * a ≤ b) :
    (lnPart a b : ℝ) ≤ 2 ^ 56 * Real.log ((b + a) / (b - a)) ∧
      2 ^ 56 * Real.log ((b + a) / (b - a)) ≤ lnPart a b + 109 := by
  have hbR : (0 : ℝ) < b := Nat.cast_pos.2 hb
  have habR : (3 * a : ℝ) ≤ b := by exact_mod_cast hab
  have haR : (0 : ℝ) ≤ a := a.cast_nonneg
  have hz : (0 : ℝ) ≤ a / b := by positivity
  obtain ⟨hlo, hhi⟩ := halfLog_bounds haR (by linarith : (a : ℝ) < b) 18
  have hz3 : (a / b : ℝ) ≤ 1 / 3 := by
    rw [div_le_iff₀ hbR]
    linarith
  have htail := seriesTail_le hz hz3
  obtain ⟨hx, hx'⟩ := natDiv_bounds (t := 2 ^ lnFrac) (a := a) (b := b) (x := 2 ^ 56) (by norm_num [lnFrac])
    (by norm_num [lnFrac])
  obtain ⟨hle, hge⟩ := atanhTerms_bounds (Nat.mul_pos hb hb) (by nlinarith : 9 * (a * a) ≤ b * b) 18 0
    (2 ^ lnFrac * a / b) hx (by linarith)
  have hsum : ∑ i ∈ Finset.range 18, 2 ^ 56 * (a / b : ℝ) * ((a * a : ℕ) / (b * b : ℕ)) ^ i / (2 * (0 + i : ℕ) + 1) =
      2 ^ 56 * ∑ i ∈ Finset.range 18, (a / b : ℝ) ^ (2 * i + 1) / (2 * i + 1) := by
    rw [Finset.mul_sum]
    refine Finset.sum_congr rfl fun i _ => ?_
    rw [Nat.zero_add, Nat.cast_mul, Nat.cast_mul, mul_div_mul_comm, ← sq, ← pow_mul, mul_assoc, ← pow_succ',
      mul_div_assoc]
  rw [hsum] at hle hge
  push_cast [lnPart] at hle hge ⊢
  constructor <;> linarith

/-- `2^56 ln 2`, rounded down. -/
theorem ln2_bounds : (ln2 : ℝ) ≤ 2 ^ 56 * Real.log 2 ∧ 2 ^ 56 * Real.log 2 ≤ ln2 + 109 := by
  have h := lnPart_bounds (a := 1) (b := 3) (by decide) (by decide)
  norm_num at h ⊢
  exact h

/-- `m / V = 2^e f` with `1 <= f < 2`: the octave `e` that the model takes out of the quotient (log 7). -/
theorem octave_bounds {p v : ℕ} (hv : 1 ≤ v) (hle : v ≤ 2 ^ p) :
    v * 2 ^ Nat.log2 (2 ^ p / v) ≤ 2 ^ p ∧ 2 ^ p < 2 * (v * 2 ^ Nat.log2 (2 ^ p / v)) ∧ Nat.log2 (2 ^ p / v) ≤ p := by
  have hpos : 2 ^ p / v ≠ 0 := (Nat.div_pos hle hv).ne'
  have hlog : 2 ^ Nat.log2 (2 ^ p / v) ≤ 2 ^ p / v := Nat.log2_self_le hpos
  have hlt : 2 ^ p / v < 2 ^ (Nat.log2 (2 ^ p / v) + 1) := Nat.lt_log2_self
  refine ⟨(Nat.mul_comm _ _).trans_le ((Nat.le_div_iff_mul_le hv).1 hlog), ?_, ?_⟩
  · have := (Nat.div_lt_iff_lt_mul hv).1 hlt
    rw [pow_succ] at this
    linarith
  · exact (Nat.pow_le_pow_iff_right (by decide)).1 (hlog.trans (Nat.div_le_self _ _))

/-- With `e` octaves taken out, `ln(m / V) = e ln 2 + ln(m / (2^e V))`. -/
theorem log_octave {p v : ℕ} (hv : 1 ≤ v) (e : ℕ) :
    Real.log (2 ^ p / v) = e * Real.log 2 + Real.log (2 ^ p / (v * 2 ^ e : ℕ)) := by
  have hvR : (0 : ℝ) < v := Nat.cast_pos.2 hv
  push_cast
  rw [← Real.log_pow, ← Real.log_mul (by positivity) (by positivity), mul_div_left_comm, mul_comm (v : ℝ),
    div_mul_cancel_left₀ (by positivity), div_eq_mul_inv]

/-- Within an octave the argument `z = (f - 1) / (f + 1)` is that of `ln f`, `f = m / u`, and at most 1/3. -/
theorem lnPart_octave_bounds {m u : ℕ} (hle : u ≤ m) (hlt : m < 2 * u) :
    (lnPart (m - u) (m + u) : ℝ) ≤ 2 ^ 56 * Real.log (m / u) ∧
      2 ^ 56 * Real.log (m / u) ≤ lnPart (m - u) (m + u) + 109 := by
  have hratio : (((m + u : ℕ) : ℝ) + (m - u : ℕ)) / ((m + u : ℕ) - (m - u : ℕ)) = m / u := by
    rw [Nat.cast_sub hle, Nat.cast_add, add_add_sub_cancel, add_sub_sub_cancel, ← two_mul, ← two_mul,
      mul_div_mul_left _ _ two_ne_zero]
  rw [← hratio]
  exact lnPart_bounds (by omega) (by omega)

/-- The model's logarithm is `2^56 ln(m / V)`, rounded down by less than 2000. -/
theorem lnRatio_bounds {p v : ℕ} (h16 : p ≤ 16) (hv : 1 ≤ v) (hle : v ≤ 2 ^ p) :
    (lnRatio p v : ℝ) ≤ 2 ^ 56 * Real.log (2 ^ p / v) ∧ 2 ^ 56 * Real.log (2 ^ p / v) < lnRatio p v + 2000 := by
  obtain ⟨hoct, hoct', he⟩ := octave_bounds hv hle
  have hL : lnRatio p v = Nat.log2 (2 ^ p / v) * ln2 +
      lnPart (2 ^ p - v * 2 ^ Nat.log2 (2 ^ p / v)) (2 ^ p + v * 2 ^ Nat.log2 (2 ^ p / v)) := rfl
  generalize Nat.log2 (2 ^ p / v) = e at hoct hoct' he hL
  have heR : (e : ℝ) ≤ 16 := by exact_mod_cast he.trans h16
  obtain ⟨hlo, hhi⟩ := lnPart_octave_bounds hoct hoct'
  obtain ⟨hln, hln'⟩ := ln2_bounds
  have hmul := mul_le_mul_of_nonneg_left hln e.cast_nonneg
  have hmul' := mul_le_mul_of_nonneg_left hln' e.cast_nonneg
  rw [Nat.cast_pow, Nat.cast_ofNat] at hlo hhi
  rw [hL, log_octave hv e, Nat.cast_add, Nat.cast_mul]
  constructor <;> linarith

/-- Settles O31: the error of `lnRatio_bounds` times `m`, at most `2^16 2000 2^-56`. -/
theorem logarithmErrorIsBelowTheMargin : Obligations.LogarithmErrorIsBelowTheMargin := by
  unfold Obligations.LogarithmErrorIsBelowTheMargin
  intro p v _ h16 hv hle
  obtain ⟨hlo, hhi⟩ := lnRatio_bounds h16 hv hle
  have hpos : (0 : ℝ) < 2 ^ p := by positivity
  have hpow : (2 : ℝ) ^ p ≤ 2 ^ 16 := pow_le_pow_right₀ one_le_two h16
  have hmul := mul_le_mul_of_nonneg_left hlo hpos.le
  have hmul' := mul_lt_mul_of_pos_left hhi hpos
  rw [lnFrac, div_le_iff₀ (by positivity), sub_lt_iff_lt_add, ← sub_lt_iff_lt_add', lt_div_iff₀ (by positivity)]
  constructor <;> linarith

end Sys2Proof.Machine
end

section
/-! PROOFS. The statements of 44_estimate.md: the linear-counting value (R126, R127).

The model's logarithm is below the real one by less than 2000 units of `2^-56` (`lnRatio_bounds`). The two have the same
integer part because none of the 65535 numbers `2^16 ln(2^16 / V)` lies closer than that above an integer. No formula
says where these numbers lie, so `sweepClear_all` evaluates one bound for each, in a single run down the sizes `V`; the
lesser precisions follow from precision 16. -/

namespace Sys2Proof.Machine

/-! ### Where the logarithms of precision 16 lie -/

/-- `2^56 ln(2^16 / V)`: in units of `2^-40` this is `m ln(m / V)` at precision 16. -/
noncomputable def scaledLog (v : ℕ) : ℝ :=
  2 ^ 56 * Real.log (2 ^ 16 / v)

/-- `m ln(m / V)` at precision 16 lies above an integer by more than the model's error, and below the next. -/
def LogClear (v : ℕ) : Prop :=
  ∃ q : ℕ, (q : ℝ) * 2 ^ 40 + 2000 ≤ scaledLog v ∧ scaledLog v < (q + 1) * 2 ^ 40

/-- `u` overestimates the logarithm at `v` by at least `d` and at most `2^17`. -/
def Overestimates (u v d : ℕ) : Prop :=
  scaledLog v + d ≤ u ∧ (u : ℝ) ≤ scaledLog v + 2 ^ 17

/-- An overestimate that is not within `2^18` above an integer shows the logarithm clear. -/
theorem Overestimates.logClear {u v d : ℕ} (h : Overestimates u v d) (hu : 2 ^ 18 ≤ u % 2 ^ 40) : LogClear v := by
  obtain ⟨hlo, hhi⟩ := h
  have hd : (0 : ℝ) ≤ d := d.cast_nonneg
  have hdiv := Nat.div_add_mod u (2 ^ 40)
  have hle : ((u / 2 ^ 40 : ℕ) : ℝ) * 2 ^ 40 + 2 ^ 18 ≤ u := by
    have : u / 2 ^ 40 * 2 ^ 40 + 2 ^ 18 ≤ u := by omega
    exact_mod_cast this
  have hlt : (u : ℝ) < ((u / 2 ^ 40 : ℕ) + 1) * 2 ^ 40 := by
    have : u < (u / 2 ^ 40 + 1) * 2 ^ 40 := by omega
    exact_mod_cast this
  exact ⟨u / 2 ^ 40, by linarith, by linarith⟩

/-- Half of `v` lies an octave, `ln 2`, above it. -/
theorem scaledLog_half {k : ℕ} (hk : 0 < k) : scaledLog k = scaledLog (k * 2) + 2 ^ 56 * Real.log 2 := by
  have hkR : (0 : ℝ) < k := Nat.cast_pos.2 hk
  rw [scaledLog, scaledLog, ← mul_add, ← Real.log_mul (by positivity) (by norm_num), Nat.cast_mul, Nat.cast_ofNat,
    div_mul_eq_mul_div, mul_div_mul_right _ _ two_ne_zero]

theorem Overestimates.mono {u v d d' : ℕ} (h : Overestimates u v d) (hd : d' ≤ d) : Overestimates u v d' := by
  obtain ⟨hlo, hhi⟩ := h
  have hdR : (d' : ℝ) ≤ d := Nat.cast_le.2 hd
  exact ⟨by linarith, hhi⟩

theorem Overestimates.half {u k d : ℕ} (hk : 0 < k) (h : Overestimates u (k * 2) (d + 109)) :
    Overestimates (u + ln2) k d := by
  obtain ⟨hlo, hhi⟩ := h
  obtain ⟨hln, hln'⟩ := ln2_bounds
  rw [Overestimates, scaledLog_half hk]
  push_cast at hlo ⊢
  constructor <;> linarith

/-- The first two terms of `2^56 ln((w + 1) / (w - 1))`, each rounded down. -/
def lnStep (w : ℕ) : ℕ :=
  2 ^ 57 / w + 2 ^ 57 / (3 * w ^ 3)

/-- What those two terms leave out is less than one unit. -/
theorem stepTail_le {z : ℝ} (hz : 0 ≤ z) (hz16 : z ≤ 1 / 2 ^ 16) :
    2 ^ 57 * (z ^ (2 * 2 + 1) / (1 - z ^ 2)) ≤ 1 := by
  have hpow : z ^ (2 * 2 + 1) ≤ 1 / 2 ^ 80 := (pow_le_pow_left₀ hz hz16 _).trans (by norm_num)
  have hsq : z ^ 2 ≤ 1 / 2 := (pow_le_pow_left₀ hz hz16 2).trans (by norm_num)
  rw [← mul_div_assoc, div_le_iff₀ (by linarith)]
  norm_num at hpow ⊢
  linarith

theorem lnStep_bounds (w : ℕ) :
    (lnStep w : ℝ) ≤ 2 ^ 57 * (1 / w + (1 / w) ^ 3 / 3) ∧ 2 ^ 57 * (1 / w + (1 / w) ^ 3 / 3) ≤ (lnStep w : ℝ) + 2 := by
  obtain ⟨h1, h1'⟩ := cast_natDiv_bounds (2 ^ 57) w
  obtain ⟨h3, h3'⟩ := cast_natDiv_bounds (2 ^ 57) (3 * w ^ 3)
  have hcube : (2 ^ 57 / (3 * w ^ 3) : ℝ) = 2 ^ 57 * ((1 / w) ^ 3 / 3) := by
    rw [one_div_pow, div_div, mul_one_div, mul_comm (w ^ 3 : ℝ)]
  simp only [Nat.cast_mul, Nat.cast_pow, Nat.cast_ofNat] at h1 h1' h3 h3'
  rw [hcube] at h3 h3'
  rw [lnStep, Nat.cast_add, mul_add, mul_one_div]
  constructor <;> linarith

/-- From `v + 1` down to `v` the logarithm grows by `lnStep (2 v + 1)` or up to 3 more. -/
theorem scaledLog_step {v : ℕ} (hv : 2 ^ 15 ≤ v) :
    scaledLog (v + 1) + lnStep (2 * v + 1) ≤ scaledLog v ∧ scaledLog v ≤ scaledLog (v + 1) + lnStep (2 * v + 1) + 3 := by
  have hvR : (2 : ℝ) ^ 15 ≤ v := by exact_mod_cast hv
  have hpos : (0 : ℝ) < v := by linarith
  have hlog : scaledLog v = scaledLog (v + 1) + 2 ^ 56 * Real.log ((v + 1) / v) := by
    rw [scaledLog, scaledLog, ← mul_add, ← Real.log_mul (by positivity) (by positivity), Nat.cast_add_one,
      div_mul_div_cancel₀ (by positivity)]
  have hratio : (((2 * v + 1 : ℕ) : ℝ) + 1) / ((2 * v + 1 : ℕ) - 1) = (v + 1) / v := by
    push_cast
    rw [add_sub_cancel_right, add_assoc, one_add_one_eq_two, ← mul_add_one, mul_div_mul_left _ _ two_ne_zero]
  have hw : (2 : ℝ) ^ 16 ≤ (2 * v + 1 : ℕ) := by
    push_cast
    linarith
  obtain ⟨hlo, hhi⟩ := halfLog_bounds zero_le_one (by linarith : (1 : ℝ) < (2 * v + 1 : ℕ)) 2
  obtain ⟨hstep, hstep'⟩ := lnStep_bounds (2 * v + 1)
  have htail := stepTail_le (by positivity) (one_div_le_one_div_of_le (by positivity) hw)
  rw [hratio] at hlo hhi
  norm_num [Finset.sum_range_succ] at hlo hhi hstep hstep' htail
  rw [hlog]
  constructor <;> linarith

theorem Overestimates.step {u v d : ℕ} (hv : 2 ^ 15 ≤ v) (h : Overestimates u (v + 1) (d + 3)) :
    Overestimates (u + lnStep (2 * v + 1)) v d := by
  obtain ⟨hlo, hhi⟩ := h
  obtain ⟨hstep, hstep'⟩ := scaledLog_step hv
  rw [Overestimates]
  push_cast at hlo ⊢
  constructor <;> linarith

/-- The logarithms at `v` and at its halves `v / 2`, `v / 4`, ... are clear, from the overestimate `u` at `v`. -/
def octavesClear : ℕ → ℕ → ℕ → Bool
  | 0, _, _ => true
  | n + 1, v, u => Nat.ble (2 ^ 18) (u % 2 ^ 40) && (Nat.beq (v % 2) 1 || octavesClear n (v / 2) (u + ln2))

theorem octavesClear_sound {n v u : ℕ} (h : octavesClear n v u = true) (hu : Overestimates u v (n * 109)) {e k : ℕ}
    (he : e < n) (hk : 0 < k) (hv : v = k * 2 ^ e) : LogClear k := by
  induction n generalizing v u e with
  | zero => exact absurd he (Nat.not_lt_zero e)
  | succ n ih =>
    simp only [octavesClear, Bool.and_eq_true, Bool.or_eq_true, Nat.ble_eq, Nat.beq_eq] at h
    obtain ⟨hclear, hrest⟩ := h
    cases e with
    | zero =>
      rw [pow_zero, mul_one] at hv
      exact hv ▸ hu.logClear hclear
    | succ e =>
      have hhalf : v = k * 2 ^ e * 2 := by rw [hv, pow_succ, mul_assoc]
      have hrest : octavesClear n (v / 2) (u + ln2) = true := hrest.resolve_left (by omega)
      rw [hhalf, Nat.mul_div_cancel _ two_pos] at hrest
      rw [hhalf, Nat.succ_mul] at hu
      exact ih hrest (hu.half (by positivity)) (Nat.lt_of_succ_lt_succ he) rfl

/-- The logarithms at the `n` sizes below `2^15 + n`, down to `2^15`, and at their halves, are clear, from the
overestimate `u` at `2^15 + n`. -/
def sweepClear : ℕ → ℕ → Bool
  | 0, _ => true
  | n + 1, u =>
    octavesClear 16 (2 ^ 15 + n) (u + lnStep (2 * (2 ^ 15 + n) + 1)) &&
      sweepClear n (u + lnStep (2 * (2 ^ 15 + n) + 1))

theorem sweepClear_sound {n u : ℕ} (h : sweepClear n u = true) (hu : Overestimates u (2 ^ 15 + n) (16 * 109 + n * 3))
    {e k : ℕ} (he : e < 16) (hk : 0 < k) (hlo : 2 ^ 15 ≤ k * 2 ^ e) (hhi : k * 2 ^ e < 2 ^ 15 + n) : LogClear k := by
  induction n generalizing u with
  | zero => omega
  | succ n ih =>
    simp only [sweepClear, Bool.and_eq_true] at h
    obtain ⟨hoct, hrest⟩ := h
    have hstep : Overestimates (u + lnStep (2 * (2 ^ 15 + n) + 1)) (2 ^ 15 + n) (16 * 109 + n * 3) :=
      Overestimates.step (Nat.le_add_right _ n) (hu.mono (by omega))
    rcases Nat.lt_succ_iff_lt_or_eq.1 hhi with hlt | heq
    · exact ih hrest hstep hlt
    · exact octavesClear_sound hoct (hstep.mono (Nat.le_add_right _ _)) he hk heq.symm

/-- Every size from `2^16 - 1` down to `2^15`, with its halves: the 65535 arguments of precision 16 (R126). -/
theorem sweepClear_all : sweepClear (2 ^ 15) (2 ^ 17) = true := by decide +kernel

/-- No logarithm of precision 16 comes within the model's error above an integer (R127 (e)). -/
theorem logClear {v : ℕ} (hv : 1 ≤ v) (hlt : v < 2 ^ 16) : LogClear v := by
  have hlog : Nat.log2 v < 16 := (Nat.log2_lt (by omega)).2 hlt
  have hlo : 2 ^ Nat.log2 v ≤ v := Nat.log2_self_le (by omega)
  have hhi : v < 2 ^ (Nat.log2 v + 1) := Nat.lt_log2_self
  have hpow : 2 ^ Nat.log2 v * 2 ^ (15 - Nat.log2 v) = 2 ^ 15 := by rw [← pow_add, Nat.add_sub_cancel' (by omega)]
  have hstart : Overestimates (2 ^ 17) (2 ^ 15 + 2 ^ 15) (16 * 109 + 2 ^ 15 * 3) := by
    norm_num [Overestimates, scaledLog]
  refine sweepClear_sound sweepClear_all hstart (e := 15 - Nat.log2 v) (by omega) hv ?_ ?_
  · exact hpow ▸ Nat.mul_le_mul_right _ hlo
  · have := Nat.mul_lt_mul_of_pos_right hhi (by positivity : 0 < 2 ^ (15 - Nat.log2 v))
    rwa [pow_succ', Nat.mul_assoc, hpow, Nat.two_mul] at this

/-! ### The integer part (R126) -/

/-- At a clear logarithm what the model computes and the real number have the same integer part. -/
theorem LogClear.div_eq {v L : ℕ} (h : LogClear v) (hlo : (L : ℝ) ≤ scaledLog v) (hhi : scaledLog v < L + 2000) :
    L / 2 ^ 40 = ⌊scaledLog v⌋₊ / 2 ^ 40 := by
  obtain ⟨q, hq, hq'⟩ := h
  have hpos : 0 ≤ scaledLog v := L.cast_nonneg.trans hlo
  have hL : q * 2 ^ 40 ≤ L := by
    have : ((q * 2 ^ 40 : ℕ) : ℝ) ≤ L := by push_cast; linarith
    exact_mod_cast this
  have hfloor : ⌊scaledLog v⌋₊ < (q + 1) * 2 ^ 40 := (Nat.floor_lt hpos).2 (by exact_mod_cast hq')
  have hle : L ≤ ⌊scaledLog v⌋₊ := Nat.le_floor hlo
  rw [Nat.div_eq_of_lt_le hL (hle.trans_lt hfloor), Nat.div_eq_of_lt_le (hL.trans hle) hfloor]

/-- `m / V` at precision `p` is `m / V` at precision 16 with `V` moved up (R126). -/
theorem scaledLog_shift {p v : ℕ} (h16 : p ≤ 16) :
    2 ^ 56 * Real.log (2 ^ p / v) = scaledLog (v * 2 ^ (16 - p)) := by
  have hpow : (2 : ℝ) ^ 16 = 2 ^ p * 2 ^ (16 - p) := by rw [← pow_add, Nat.add_sub_cancel' h16]
  rw [scaledLog, hpow, Nat.cast_mul, Nat.cast_pow, Nat.cast_ofNat, mul_div_mul_right _ _ (by positivity)]

/-- The model's logarithm and the real one agree down to the unit of `m ln(m / V)` at precision 16. -/
theorem lnRatio_div_eq {p v : ℕ} (h16 : p ≤ 16) (hv : 1 ≤ v) (hle : v ≤ 2 ^ p) :
    lnRatio p v / 2 ^ 40 = ⌊2 ^ 56 * Real.log (2 ^ p / v)⌋₊ / 2 ^ 40 := by
  obtain ⟨hlo, hhi⟩ := lnRatio_bounds h16 hv hle
  rcases hle.lt_or_eq with hlt | rfl
  · have hpow : 2 ^ p * 2 ^ (16 - p) = 2 ^ 16 := by rw [← pow_add, Nat.add_sub_cancel' h16]
    have hshift : v * 2 ^ (16 - p) < 2 ^ 16 := hpow ▸ Nat.mul_lt_mul_of_pos_right hlt (by positivity)
    rw [scaledLog_shift h16] at hlo hhi ⊢
    exact (logClear (Nat.mul_pos hv (by positivity)) hshift).div_eq hlo hhi
  · have hzero : Real.log (2 ^ p / (2 ^ p : ℕ)) = 0 := by
      rw [Nat.cast_pow, Nat.cast_ofNat, div_self (by positivity), Real.log_one]
    rw [hzero, mul_zero] at hlo ⊢
    have : lnRatio p (2 ^ p) = 0 := by exact_mod_cast hlo.antisymm (Nat.cast_nonneg _)
    rw [this, Nat.floor_zero]

/-- `LC(p, V)` is the integer part of `m ln(m / V)` (R126). -/
theorem linearCount_eq_floor {p v : ℕ} (h16 : p ≤ 16) (hv : 1 ≤ v) (hle : v ≤ 2 ^ p) :
    linearCount p v = ⌊(2 : ℝ) ^ p * Real.log (2 ^ p / v)⌋₊ := by
  have hpow : 2 ^ p * (2 ^ 40 * 2 ^ (16 - p)) = 2 ^ 56 := by
    rw [← pow_add, ← pow_add]
    congr 1
    omega
  have hreal : (2 : ℝ) ^ p * Real.log (2 ^ p / v) = 2 ^ 56 * Real.log (2 ^ p / v) / (2 ^ 40 * 2 ^ (16 - p) : ℕ) := by
    rw [eq_div_iff (by positivity), mul_right_comm]
    congr 1
    exact_mod_cast hpow
  calc linearCount p v = lnRatio p v / (2 ^ 40 * 2 ^ (16 - p)) := by
        rw [linearCount, lnFrac, ← hpow, Nat.mul_div_mul_left _ _ (by positivity)]
    _ = ⌊2 ^ 56 * Real.log (2 ^ p / v)⌋₊ / (2 ^ 40 * 2 ^ (16 - p)) := by
        rw [← Nat.div_div_eq_div_mul, lnRatio_div_eq h16 hv hle, Nat.div_div_eq_div_mul]
    _ = _ := by rw [hreal, Nat.floor_div_natCast]

/-- `m ln(m / V)` is not negative, as `V` is at most `m`. -/
theorem mul_log_nonneg {p v : ℕ} (hv : 1 ≤ v) (hle : v ≤ 2 ^ p) : (0 : ℝ) ≤ 2 ^ p * Real.log (2 ^ p / v) := by
  have hone : (1 : ℝ) ≤ 2 ^ p / v := by
    rw [one_le_div (Nat.cast_pos.2 hv)]
    exact_mod_cast hle
  exact mul_nonneg (by positivity) (Real.log_nonneg hone)

theorem cast_linearCount {p v : ℕ} (h16 : p ≤ 16) (hv : 1 ≤ v) (hle : v ≤ 2 ^ p) :
    (linearCount p v : ℤ) = ⌊(2 : ℝ) ^ p * Real.log (2 ^ p / v)⌋ := by
  rw [linearCount_eq_floor h16 hv hle, Int.natCast_floor_eq_floor (mul_log_nonneg hv hle)]

/-- Settles O32: the model's logarithm lies between the same integers as the real one (`lnRatio_div_eq`), and
`exp(n / m) <= m / V < exp((n + 1) / m)` says in exponentials that `n` is the integer part. -/
theorem linearCountIsTheFloorOfTheRealLogarithm : Obligations.LinearCountIsTheFloorOfTheRealLogarithm := by
  unfold Obligations.LinearCountIsTheFloorOfTheRealLogarithm
  intro p v _ h16 hv hle
  refine ⟨cast_linearCount h16 hv hle, fun n => ?_⟩
  have hpos : (0 : ℝ) < 2 ^ p / v := div_pos (by positivity) (Nat.cast_pos.2 hv)
  rw [← Real.le_log_iff_exp_le hpos, ← Real.log_lt_iff_lt_exp hpos, div_le_iff₀' (by positivity),
    lt_div_iff₀' (by positivity), linearCount_eq_floor h16 hv hle, eq_comm,
    Nat.floor_eq_iff (mul_log_nonneg hv hle)]

/-- Settles O33: the tables, the check sums and the ends of R127 by evaluation. -/
theorem linearCountTablesOfTheSpec : Obligations.LinearCountTablesOfTheSpec := by
  unfold Obligations.LinearCountTablesOfTheSpec
  decide +kernel

end Sys2Proof.Machine
end

section
/-! PROOFS. The statements of 44_estimate.md: the estimate (R125, R129, R131, R133). -/

namespace Sys2Proof.Machine

/-! ### The values of `LC` at and below `V = m` -/

theorem linearCount_self {p : ℕ} (h16 : p ≤ 16) : linearCount p (2 ^ p) = 0 := by
  rw [linearCount_eq_floor h16 Nat.one_le_two_pow le_rfl, Nat.cast_pow, Nat.cast_ofNat, div_self (by positivity),
    Real.log_one, mul_zero, Nat.floor_zero]

/-- `LC` is at least 1 below `V = m`: `m ln(m / V) >= m - V`. -/
theorem linearCount_pos {p v : ℕ} (h16 : p ≤ 16) (hv : 1 ≤ v) (hlt : v < 2 ^ p) : 0 < linearCount p v := by
  have hvR : (0 : ℝ) < v := Nat.cast_pos.2 hv
  have hltR : (v : ℝ) + 1 ≤ 2 ^ p := by exact_mod_cast hlt
  have hlog := mul_le_mul_of_nonneg_left (Real.one_sub_inv_le_log_of_pos (x := 2 ^ p / v) (by positivity))
    (by positivity : (0 : ℝ) ≤ 2 ^ p)
  rw [inv_div, mul_sub, mul_one, mul_div_cancel₀ _ (by positivity)] at hlog
  rw [linearCount_eq_floor h16 hv hlt.le, Nat.floor_pos]
  linarith

/-- `LC` is at most `m ln m`, below `2^20`. -/
theorem linearCount_lt {p v : ℕ} (h16 : p ≤ 16) (hv : 1 ≤ v) (hle : v ≤ 2 ^ p) : linearCount p v < 2 ^ 20 := by
  have hvR : (1 : ℝ) ≤ v := by exact_mod_cast hv
  have hpR : (p : ℝ) ≤ 16 := by exact_mod_cast h16
  have hlog : Real.log (2 ^ p / v) < 16 := by
    have hmono : Real.log (2 ^ p / v) ≤ Real.log (2 ^ p) :=
      Real.log_le_log (by positivity) (div_le_self (by positivity) hvR)
    rw [Real.log_pow] at hmono
    nlinarith [Real.log_two_lt_d9, Real.log_two_gt_d9]
  have hpow : (2 : ℝ) ^ p ≤ 2 ^ 16 := pow_le_pow_right₀ one_le_two h16
  rw [linearCount_eq_floor h16 hv hle, Nat.floor_lt (mul_log_nonneg hv hle)]
  calc (2 : ℝ) ^ p * Real.log (2 ^ p / v) < 2 ^ p * 16 := by gcongr
    _ ≤ ((2 ^ 20 : ℕ) : ℝ) := by push_cast; linarith

/-! ### The selection (R120, R125) -/

theorem Memory.estimate_of_linear {m : Memory} {p : ℕ} (hs : small p (m.harmonicSum p) = true)
    (hv : m.countZero p ≠ 0) : m.estimate p = linearCount p (m.countZero p) := by
  simp [Memory.estimate, selectEstimate, hs, hv]

theorem Memory.estimate_of_raw {m : Memory} {p : ℕ} (h : small p (m.harmonicSum p) = true → m.countZero p = 0) :
    m.estimate p = rawEstimate p (m.harmonicSum p) := by
  simp only [Memory.estimate, selectEstimate, Bool.and_eq_true, decide_eq_true_eq]
  exact if_neg fun ⟨hs, hv⟩ => hv (h hs)

/-- `COUNTZERO` counts among `m` registers (R92). -/
theorem Memory.countZero_le (m : Memory) (p : ℕ) : m.countZero p ≤ 2 ^ p :=
  Nat.sub_le _ _

/-! ### The greatest estimate (R129) -/

/-- `alpha(p)` lies between 1/2 and `alpha(16)`, at all thirteen precisions (R102). -/
theorem alpha_bounds {p : ℕ} (h4 : 4 ≤ p) (h16 : p ≤ 16) : 1 / 2 ≤ alpha p ∧ alpha p * 2 ^ 33 < 6195817812 := by
  interval_cases p <;> norm_num [alpha]

/-- `E` against `alpha 2^33`, as `Sint` against its least value `2^(2P-4)`: both are `alpha m^2 2^29` over the sum. -/
theorem Memory.specRaw_mul_harmonicSum {m : Memory} (hm : m.wf = true) {p : ℕ} (h4 : 4 ≤ p)
    (hle : ∀ j, j < 2 ^ p → (m.read j).toNat ≤ 29) :
    m.specRaw p * m.harmonicSum p = alpha p * 2 ^ 33 * (2 ^ (2 * p - 4) : ℕ) := by
  have hpow : (2 : ℚ) ^ (2 * p - 4) * 2 ^ 4 = (2 ^ p) ^ 2 := by
    rw [← pow_add, ← pow_mul]
    congr 1
    omega
  have hS := (Memory.specSum_pos m p).ne'
  rw [Memory.cast_harmonicSum hm hle, Memory.specRaw, ← hpow, Nat.cast_pow, Nat.cast_ofNat]
  field_simp

/-- The sum has its least value exactly if every live register holds `33 - p`. -/
theorem Memory.harmonicSum_eq_iff {m : Memory} (hm : m.wf = true) {p : ℕ} (h4 : 4 ≤ p) (h16 : p ≤ 16)
    (hle : ∀ j, j < 2 ^ p → (m.read j).toNat ≤ 33 - p) :
    2 ^ (2 * p - 4) = m.harmonicSum p ↔ ∀ j, j < 2 ^ p → (m.read j).toNat = 33 - p := by
  have hterm : ∀ j ∈ Finset.range (2 ^ p), 2 ^ (p - 4) ≤ 2 ^ (29 - (m.read j).toNat) :=
    fun j hj => two_pow_sub_le h16 (hle j (Finset.mem_range.1 hj))
  have hiff := Finset.sum_eq_sum_iff_of_le hterm
  rw [Finset.sum_const, Finset.card_range, smul_eq_mul, two_pow_mul_two_pow_sub h4, ← Memory.harmonicSum_eq_sum hm] at hiff
  rw [hiff]
  refine forall_congr' fun j => ?_
  rw [Finset.mem_range, Nat.pow_right_inj one_lt_two]
  refine forall_congr' fun hj => ?_
  have := hle j hj
  omega

/-- `E` is `alpha 2^33` where the sum has its least value, and otherwise more than 1 below it. -/
theorem Memory.specRaw_eq_or_lt {m : Memory} (hm : m.wf = true) {p : ℕ} (h4 : 4 ≤ p) (h16 : p ≤ 16)
    (hle : ∀ j, j < 2 ^ p → (m.read j).toNat ≤ 33 - p) :
    (2 ^ (2 * p - 4) = m.harmonicSum p ∧ m.specRaw p = alpha p * 2 ^ 33) ∨
      (2 ^ (2 * p - 4) < m.harmonicSum p ∧ m.specRaw p + 1 ≤ alpha p * 2 ^ 33) := by
  have hE := Memory.specRaw_mul_harmonicSum hm h4 fun j hj => (hle j hj).trans (Nat.sub_le_sub_left h4 33)
  have hN : (0 : ℚ) < (2 ^ (2 * p - 4) : ℕ) := by positivity
  rcases (Memory.le_harmonicSum hm h4 h16 hle).eq_or_lt with heq | hlt
  · rw [← heq] at hE
    exact .inl ⟨heq, mul_right_cancel₀ hN.ne' hE⟩
  · refine .inr ⟨hlt, ?_⟩
    obtain ⟨hhalf, -⟩ := alpha_bounds h4 h16
    have hpos : 0 < m.specRaw p := (mul_pos (alpha_pos h4) (by positivity)).trans_le (Memory.le_specRaw m h4)
    have hstep : ((2 ^ (2 * p - 4) : ℕ) : ℚ) + 1 ≤ m.harmonicSum p := by exact_mod_cast hlt
    have hNle : ((2 ^ (2 * p - 4) : ℕ) : ℚ) ≤ 2 ^ 28 := by
      exact_mod_cast Nat.pow_le_pow_right two_pos (by omega : 2 * p - 4 ≤ 28)
    have hmul := mul_le_mul_of_nonneg_left hstep hpos.le
    rw [hE] at hmul
    refine le_of_mul_le_mul_right ?_ (by linarith : (0 : ℚ) < (2 ^ (2 * p - 4) : ℕ) + 1)
    linarith

/-- The estimate is the integer part of `alpha 2^33` where the sum has its least value, and otherwise below it. -/
theorem Memory.estimate_eq_or_lt {m : Memory} (hm : m.wf = true) {p : ℕ} (h4 : 4 ≤ p) (h16 : p ≤ 16)
    (hle : ∀ j, j < 2 ^ p → (m.read j).toNat ≤ 33 - p) :
    (2 ^ (2 * p - 4) = m.harmonicSum p ∧ (m.estimate p : ℤ) = ⌊alpha p * 2 ^ 33⌋) ∨
      (2 ^ (2 * p - 4) < m.harmonicSum p ∧ (m.estimate p : ℤ) < ⌊alpha p * 2 ^ 33⌋) := by
  have hle29 : ∀ j, j < 2 ^ p → (m.read j).toNat ≤ 29 := fun j hj => (hle j hj).trans (Nat.sub_le_sub_left h4 33)
  obtain ⟨hhalf, -⟩ := alpha_bounds h4 h16
  have hraw := Memory.rawEstimate_eq_floor hm h4 hle29
  rcases Memory.specRaw_eq_or_lt hm h4 h16 hle with ⟨heq, hE⟩ | ⟨hlt, hE⟩
  · refine .inl ⟨heq, ?_⟩
    have hsmall : small p (m.harmonicSum p) = true → m.countZero p = 0 := by
      rw [Memory.small_iff_specRaw hm h4 hle29, hE]
      intro h
      have hpow : (2 : ℚ) ^ p ≤ 2 ^ 16 := pow_le_pow_right₀ one_le_two h16
      linarith
    rw [Memory.estimate_of_raw hsmall, hraw, hE]
  · refine .inr ⟨hlt, ?_⟩
    by_cases hlin : small p (m.harmonicSum p) = true ∧ m.countZero p ≠ 0
    · obtain ⟨hs, hv⟩ := hlin
      have hLC := linearCount_lt h16 (Nat.pos_of_ne_zero hv) (Memory.countZero_le m p)
      rw [Memory.estimate_of_linear hs hv]
      have h20 : (2 ^ 20 : ℤ) ≤ ⌊alpha p * 2 ^ 33⌋ := Int.le_floor.2 (by push_cast; linarith)
      exact lt_of_lt_of_le (by exact_mod_cast hLC) h20
    · rw [Memory.estimate_of_raw fun hs => by_contra fun hv => hlin ⟨hs, hv⟩, hraw, ← Int.add_one_le_iff, Int.le_floor]
      have := Int.floor_le (m.specRaw p)
      push_cast
      linarith

/-- The estimate is 0 exactly if it is the linear-counting value of a bank of zeros: `E` is at least 1, and `LC` below
`V = m` too. -/
theorem Memory.estimate_eq_zero_iff {m : Memory} (hm : m.wf = true) {p : ℕ} (h4 : 4 ≤ p) (h16 : p ≤ 16)
    (hle : ∀ j, j < 2 ^ p → (m.read j).toNat ≤ 29) :
    m.estimate p = 0 ↔ small p (m.harmonicSum p) = true ∧ m.countZero p = 2 ^ p := by
  have hm0 : (2 ^ p : ℕ) ≠ 0 := by positivity
  constructor
  · intro h0
    have hlin : small p (m.harmonicSum p) = true ∧ m.countZero p ≠ 0 := by
      by_contra hlin
      have hraw := Memory.rawEstimate_eq_floor hm h4 hle
      rw [← Memory.estimate_of_raw fun hs => by_contra fun hv => hlin ⟨hs, hv⟩, h0] at hraw
      have hlt := Int.lt_floor_add_one (m.specRaw p)
      rw [← hraw] at hlt
      have hE := Memory.le_specRaw m h4
      obtain ⟨hhalf, -⟩ := alpha_bounds h4 h16
      have hpow : (2 : ℚ) ^ 4 ≤ 2 ^ p := pow_le_pow_right₀ one_le_two h4
      norm_num at hlt
      nlinarith
    obtain ⟨hs, hv⟩ := hlin
    refine ⟨hs, (Memory.countZero_le m p).eq_of_not_lt fun hlt => ?_⟩
    have hpos := linearCount_pos h16 (Nat.pos_of_ne_zero hv) hlt
    rw [← Memory.estimate_of_linear hs hv, h0] at hpos
    exact absurd hpos (lt_irrefl 0)
  · rintro ⟨hs, hv⟩
    rw [Memory.estimate_of_linear hs (hv ▸ hm0), hv, linearCount_self h16]

/-- The result of `EST` holds the whole estimate (R129). -/
theorem Memory.estimate_bounds {m : Memory} (hm : m.wf = true) {p : ℕ} (h4 : 4 ≤ p) (h16 : p ≤ 16)
    (hle : ∀ j, j < 2 ^ p → (m.read j).toNat ≤ 33 - p) :
    (m.estimate p : ℤ) ≤ ⌊alpha p * 2 ^ 33⌋ ∧ ⌊alpha p * 2 ^ 33⌋ ≤ 6195817811 ∧ m.estimate p < 2 ^ 33 := by
  obtain ⟨-, hlt⟩ := alpha_bounds h4 h16
  have hmax : ⌊alpha p * 2 ^ 33⌋ ≤ 6195817811 := Int.lt_add_one_iff.1 (Int.floor_lt.2 (by exact_mod_cast hlt))
  have hest : (m.estimate p : ℤ) ≤ ⌊alpha p * 2 ^ 33⌋ := by
    rcases Memory.estimate_eq_or_lt hm h4 h16 hle with ⟨-, heq⟩ | ⟨-, hlt⟩
    · exact heq.le
    · exact hlt.le
  exact ⟨hest, hmax, by omega⟩

/-- Settles O36: `E` is `alpha 2^33` at the least harmonic sum and clearly below it at every other, and `LC` is far
below it. -/
theorem estimateFitsThirtyThreeBits : Obligations.EstimateFitsThirtyThreeBits := by
  unfold Obligations.EstimateFitsThirtyThreeBits
  intro s hs hc
  obtain ⟨hwf, h4, h16, hle, hle29⟩ := State.live_le hs hc
  obtain ⟨hest, hmax, hlt⟩ := Memory.estimate_bounds hwf h4 h16 hle
  refine ⟨hest, hmax, hlt, Memory.estimate_eq_zero_iff hwf h4 h16 hle29, ?_⟩
  rw [← Memory.harmonicSum_eq_iff hwf h4 h16 hle]
  rcases Memory.estimate_eq_or_lt hwf h4 h16 hle with ⟨hsum, heq⟩ | ⟨hsum, hlt⟩
  · exact iff_of_true heq hsum
  · exact iff_of_false hlt.ne hsum.ne

/-- Settles O35: the model's test and counts are the exact ones, its two values are the integer parts, and 33 bits hold
them. -/
theorem estimateFollowsTheSpecFormula : Obligations.EstimateFollowsTheSpecFormula := by
  unfold Obligations.EstimateFollowsTheSpecFormula
  intro x s hs
  refine ⟨fun hc => ?_, fun hc => exec_est_of_unconfigured x hc⟩
  obtain ⟨hwf, h4, h16, hle, hle29⟩ := State.live_le hs hc
  obtain ⟨-, -, hlt⟩ := Memory.estimate_bounds hwf h4 h16 hle
  have hsmall := Memory.small_iff_specRaw hwf h4 hle29
  have hraw := Memory.rawEstimate_eq_floor hwf h4 hle29
  have hfit : (BitVec.ofNat 33 (s.reg.estimate s.p.toNat)).toNat = s.reg.estimate s.p.toNat := by
    rw [BitVec.toNat_ofNat, Nat.mod_eq_of_lt hlt]
  refine ⟨_, exec_est_of_configured x hc, fun hE hv => ?_, fun _ hv => ?_, fun hE => ?_⟩ <;> rw [hfit]
  · rw [← Memory.countZero_eq_specZeros hwf] at hv ⊢
    rw [Memory.estimate_of_linear (hsmall.2 hE) hv,
      cast_linearCount h16 (Nat.pos_of_ne_zero hv) (Memory.countZero_le _ _)]
  · rw [← Memory.countZero_eq_specZeros hwf] at hv
    rw [Memory.estimate_of_raw fun _ => hv, hraw]
  · rw [Memory.estimate_of_raw fun hs => absurd (hsmall.1 hs) hE.not_ge, hraw]

/-! ### The empty estimator (R131) -/

/-- Of a bank whose live registers are all 0, `S` and `V` are `m`. -/
theorem Memory.specSum_specZeros_of_zero {m : Memory} {p : ℕ} (h : ∀ j, j < 2 ^ p → m.read j = 0#5) :
    m.specSum p = 2 ^ p ∧ m.specZeros p = 2 ^ p := by
  have hterm : ∀ j ∈ Finset.range (2 ^ p), (1 / 2 : ℚ) ^ (m.read j).toNat = 1 := fun j hj => by
    rw [h j (Finset.mem_range.1 hj)]
    exact pow_zero _
  constructor
  · rw [Memory.specSum, Finset.sum_congr rfl hterm]
    simp
  · rw [Memory.specZeros, Finset.filter_true_of_mem fun j hj => h j (Finset.mem_range.1 hj), Finset.card_range]

theorem Memory.read_clear_of_lt (m : Memory) {p j : ℕ} (hj : j < 2 ^ p) : (m.clear p).read j = 0#5 := by
  rw [Memory.read_clear_of_index, if_pos hj]

/-- `S`, `E` and `V` of the bank that `INIT` leaves (R131). -/
theorem Memory.spec_clear (m : Memory) {p : ℕ} (h4 : 4 ≤ p) (h16 : p ≤ 16) :
    (m.clear p).specSum p = 2 ^ p ∧ (m.clear p).specRaw p = alpha p * 2 ^ p ∧
      (m.clear p).specRaw p ≤ 2.5 * 2 ^ p ∧ (m.clear p).specZeros p = 2 ^ p := by
  obtain ⟨hS, hV⟩ := Memory.specSum_specZeros_of_zero fun j hj => Memory.read_clear_of_lt m hj
  have hE : (m.clear p).specRaw p = alpha p * 2 ^ p := by
    rw [Memory.specRaw, hS, sq, ← mul_assoc, mul_div_cancel_right₀ _ (by positivity)]
  obtain ⟨-, halpha⟩ := alpha_bounds h4 h16
  refine ⟨hS, hE, ?_, hV⟩
  rw [hE]
  gcongr
  linarith

/-- The estimate of the bank that `INIT` leaves is 0 (R131). -/
theorem Memory.estimate_clear {m : Memory} (hm : m.wf = true) {p : ℕ} (h4 : 4 ≤ p) (h16 : p ≤ 16) :
    (m.clear p).estimate p = 0 := by
  have hwf := Memory.wf_clear (p := p) hm
  have hle : ∀ j, j < 2 ^ p → ((m.clear p).read j).toNat ≤ 29 := fun j hj => by
    rw [Memory.read_clear_of_lt m hj]
    exact Nat.zero_le 29
  obtain ⟨-, -, hE, hV⟩ := Memory.spec_clear m h4 h16
  rw [Memory.estimate_eq_zero_iff hwf h4 h16 hle, Memory.small_iff_specRaw hwf h4 hle,
    Memory.countZero_eq_specZeros hwf]
  exact ⟨hE, hV⟩

/-- Settles O37: `INIT` leaves every live register 0, and the estimate of that bank is 0. -/
theorem emptyEstimatorEstimatesZero : Obligations.EmptyEstimatorEstimatesZero := by
  unfold Obligations.EmptyEstimatorEstimatesZero
  intro pv x s t hs h4 h16
  have hv : validPrecision pv = true := validPrecision_iff.2 ⟨h4, h16⟩
  have he := exec_init_of_valid hv s
  refine ⟨?_, fun ht => ?_, linearCount_self h16⟩
  · rw [replies_init hv _ hs (exec_inv he hs) (State.arch_configure hv s .ok 0#33)]
    have hest := exec_est_of_configured x
      (s := State.accept (encode (.est x)) ((s.configure pv).respond .ok 0#33)) rfl
    rw [replies_cons_of_exec (by rw [decode_encode, hest]) (State.respond_rsp _ _ _)]
    simp only [State.accept_p, State.accept_reg, State.respond_p, State.respond_reg, State.configure_p,
      State.configure_reg, toNat_extractLsb'_of_validPrecision hv, Memory.estimate_clear hs.1 h4 h16]
    rfl
  · cases he.symm.trans ht
    exact Memory.spec_clear s.reg h4 h16

/-! ### Permuted registers (R133) -/

/-- Banks with the same histogram have the same sum of any function of their live registers. -/
theorem Memory.sum_read_congr {m m' : Memory} {p : ℕ}
    (h : ∀ v : Entry, ((Finset.range (2 ^ p)).filter fun j => m.read j = v).card =
      ((Finset.range (2 ^ p)).filter fun j => m'.read j = v).card) (f : Entry → ℕ) :
    ∑ j ∈ Finset.range (2 ^ p), f (m.read j) = ∑ j ∈ Finset.range (2 ^ p), f (m'.read j) := by
  rw [← Finset.sum_fiberwise' _ m.read, ← Finset.sum_fiberwise' _ m'.read]
  refine Finset.sum_congr rfl fun v _ => ?_
  rw [Finset.sum_const, Finset.sum_const, h v]

/-- Settles O38: the harmonic sum and the zero count, all that the estimate is computed from, are taken from the
histogram. -/
theorem estimateDependsOnlyOnTheHistogram : Obligations.EstimateDependsOnlyOnTheHistogram := by
  unfold Obligations.EstimateDependsOnlyOnTheHistogram
  intro m m' p hm hm' _ _ h
  have hsum : m.harmonicSum p = m'.harmonicSum p := by
    rw [Memory.harmonicSum_eq_sum hm, Memory.harmonicSum_eq_sum hm']
    exact Memory.sum_read_congr h fun v => 2 ^ (29 - v.toNat)
  have hzero : m.countZero p = m'.countZero p := by
    rw [Memory.countZero_eq_specZeros hm, Memory.countZero_eq_specZeros hm']
    exact h 0#5
  rw [Memory.estimate, Memory.estimate, hsum, hzero]

end Sys2Proof.Machine
end

section
/-! PROOFS. The statements of 60_exceptions.md: the list of error outcomes. -/

namespace Sys2Proof.Machine

/-- The operands that `INIT` refuses, in numbers (R100, R140). -/
theorem validPrecision_eq_false_iff {pv : Operand} : validPrecision pv = false ↔ pv.toNat < 4 ∨ 16 < pv.toNat := by
  rw [← Bool.not_eq_true, validPrecision_iff]
  omega

/-- Settles O40: `INIT` decides on the range of its operand, `ADD` and `EST` on `CFG`, the reserved opcode on nothing, and
each outcome has its one status. -/
theorem errorOutcomesAreExactlyTheListed : Obligations.ErrorOutcomesAreExactlyTheListed := by
  unfold Obligations.ErrorOutcomesAreExactlyTheListed
  intro i s
  obtain ⟨t, ht⟩ := exec_total i s
  cases i with
  | init pv =>
    rcases execInit_next ht with ⟨hv, rfl⟩ | ⟨hv, rfl⟩
    · have hin : ¬ (pv.toNat < 4 ∨ 16 < pv.toNat) := by simp [← validPrecision_eq_false_iff, hv]
      exact ⟨_, .ok, _, ht, State.respond_rsp _ _ _, by simp [hin]⟩
    · have hout := validPrecision_eq_false_iff.1 hv
      refine ⟨_, .invalidPrecision, _, ht, State.raise_rsp _ _ _, by simp [hout], ?_, by simp, by simp, by simp⟩
      rintro _ ⟨⟩ -
      exact BitVec.toNat_setWidth_of_le (by decide)
  | add h =>
    rcases execAdd_next ht with ⟨hc, rfl⟩ | ⟨hc, rfl⟩
    · exact ⟨_, .ok, _, ht, State.respond_rsp _ _ _, by simp [hc]⟩
    · exact ⟨_, .notConfigured, _, ht, State.raise_rsp _ _ _, by simp [hc]⟩
  | est x =>
    rcases execEst_next (x := x) ht with ⟨hc, rfl⟩ | ⟨hc, rfl⟩
    · exact ⟨_, .ok, _, ht, State.respond_rsp _ _ _, by simp [hc]⟩
    · exact ⟨_, .notConfigured, _, ht, State.raise_rsp _ _ _, by simp [hc]⟩
  | rsvd d =>
    obtain rfl := execRsvd_next (d := d) ht
    exact ⟨_, .illegalCommand, _, ht, State.raise_rsp _ _ _, by simp⟩

end Sys2Proof.Machine
end

section
/-! PROOFS. The statements of 70_reset_and_hazards.md: reset (R170, R171) and the edges of a command (R181). -/

namespace Sys2Proof.Machine

/-! ### Reset (R170, R171) -/

/-- Settles O46: the step is `resetEdge`, and the two slots it empties are empty already. -/
theorem resetClearsCfgAndNothingElse : Obligations.ResetClearsCfgAndNothingElse := by
  unfold Obligations.ResetClearsCfgAndNothingElse
  refine ⟨fun s rest hc hr hp => ?_, rfl, rfl, rfl, rfl⟩
  have hstep : step s = .next (s.withPending rest).resetEdge := step_of_pending hr hc hp
  have hreset : (s.withPending rest).resetEdge = { s with cfg := false, pending := rest } :=
    State.ext_fields rfl rfl rfl hc.symm hr.symm rfl rfl
  refine ⟨hreset ▸ hstep, fun t ht => ?_⟩
  cases hstep.symm.trans ht
  exact State.arch_of_unconfigured rfl

/-- Whatever a reset meets in the block, commands after it are answered as from `State.reset` (R31, R32). -/
theorem replies_resetEdge (ws : List CmdWord) {s : State} (hs : s.Inv) :
    replies ws s.resetEdge = replies ws State.reset :=
  replies_congr ws (State.inv_of_unconfigured rfl hs.1) invariantHoldsAfterReset rfl

/-- An abandoned command ends in the reset of a state that meets the invariant, with no response delivered, whether the
command ran or not (R171, log 9). -/
theorem abandon_next (w : CmdWord) (ran : Bool) {s : State} (hs : s.Inv) :
    ∃ u : State, abandon w ran s = .next u.resetEdge ∧ u.Inv ∧ u.pending = s.pending ∧ u.taken = s.taken := by
  rcases abandon_total w ran s with ⟨-, h⟩ | ⟨-, u, he, h⟩
  · exact ⟨s, h, hs, rfl, rfl⟩
  · obtain ⟨-, -, hpending, htaken⟩ := exec_ports he
    exact ⟨u, h, exec_inv he hs, hpending, htaken⟩

/-- Settles O47: by `abandon_next` the step ends in a reset, after which `replies_resetEdge` gives the responses. -/
theorem abandonedCommandIsNeverAnswered : Obligations.AbandonedCommandIsNeverAnswered := by
  unfold Obligations.AbandonedCommandIsNeverAnswered
  intro s w ran rest hs hc hr hp
  obtain ⟨u, hu, hinv, hpending, htaken⟩ := abandon_next (s := (s.withPending rest).accept w) w ran hs
  exact ⟨u.resetEdge, (step_of_pending hr hc hp).trans hu, htaken, hpending, rfl, rfl, rfl,
    State.arch_of_unconfigured rfl, fun ws => replies_resetEdge ws hinv⟩

/-! ### One edge, by what is in the block -/

theorem Clocked.broken_of_no_offer (c : Clocked) {pins : Pins} (hvalid : pins.cmdValid = false) :
    c.broken pins = false := by
  rw [← Bool.not_eq_true, Clocked.broken_iff]
  simp [hvalid]

theorem Pins.offered_of_no_offer {pins : Pins} (hvalid : pins.cmdValid = false) : pins.offered = none := by
  simp [Pins.offered, hvalid]

/-- A ready block accepts the command word on offer (R61). -/
theorem Clocked.tick_of_offer {c : Clocked} {pins : Pins} (hc : c.st.cmd = none) (hr : c.st.rsp = none)
    (hrst : pins.rst = false) (hvalid : pins.cmdValid = true) (hb : c.broken pins = false) :
    c.tick pins = c.begin pins.word := by
  simp [Clocked.tick, hrst, hb, hr, hc, hvalid]

/-- A command in execution with edges left has one less after the next edge (R181). -/
theorem Clocked.tick_of_waiting {c : Clocked} {pins : Pins} {w : CmdWord} {n : Nat} (hc : c.st.cmd = some w)
    (hr : c.st.rsp = none) (hw : c.wait = n + 1) (hrst : pins.rst = false) (hvalid : pins.cmdValid = false) :
    c.tick pins = .next { c with wait := n, offer := none } := by
  simp [Clocked.tick, hrst, c.broken_of_no_offer hvalid, Pins.offered_of_no_offer hvalid, hr, hc, hw]

/-- A command in execution with no edges left is carried out at the next edge (R181). -/
theorem Clocked.tick_of_due {c : Clocked} {pins : Pins} {w : CmdWord} (hc : c.st.cmd = some w)
    (hr : c.st.rsp = none) (hw : c.wait = 0) (hrst : pins.rst = false) (hvalid : pins.cmdValid = false) :
    ∃ t, exec (decode w) c.st = .next t ∧ c.tick pins = .next { c with offer := none, st := t } := by
  obtain ⟨t, he, hcarry⟩ := Clocked.carryOut_cases { c with offer := none } w
  refine ⟨t, he, ?_⟩
  simpa [Clocked.tick, hrst, c.broken_of_no_offer hvalid, Pins.offered_of_no_offer hvalid, hr, hc, hw] using hcarry

/-- A response held is delivered to a host that is ready for it (R61). -/
theorem Clocked.tick_of_taken {c : Clocked} {pins : Pins} {r : RspWord} (hr : c.st.rsp = some r)
    (hrst : pins.rst = false) (hvalid : pins.cmdValid = false) (hready : pins.rspReady = true) :
    c.tick pins = .next ({ c with offer := none }.onDeliver r) := by
  simp [Clocked.tick, hrst, c.broken_of_no_offer hvalid, Pins.offered_of_no_offer hvalid, hr, hready]

/-! ### The edges of a command in execution (R181) -/

theorem Clocked.run_cons {c c' : Clocked} {pins : Pins} (h : c.tick pins = .next c') (ps : List Pins) :
    c.run (pins :: ps) = c'.run ps := by
  simp [Clocked.run, h]

/-- While edges are left they count down, and nothing else of the block changes but the offer it remembers. -/
theorem Clocked.run_of_waiting {ps : List Pins} {c : Clocked} {w : CmdWord} {n : Nat} (hc : c.st.cmd = some w)
    (hr : c.st.rsp = none) (hw : c.wait = n + ps.length) (hps : ∀ q ∈ ps, q.rst = false ∧ q.cmdValid = false) :
    ∃ o, c.run ps = .next { c with wait := n, offer := o } := by
  induction ps generalizing c with
  | nil => exact ⟨c.offer, by rw [← show c.wait = n from hw]; rfl⟩
  | cons q ps ih =>
    obtain ⟨⟨hrst, hvalid⟩, hps⟩ := List.forall_mem_cons.1 hps
    rw [Clocked.run_cons (Clocked.tick_of_waiting hc hr hw hrst hvalid)]
    exact ih hc hr rfl hps

/-- A command in execution is carried out at the edge after those it has left (R181). -/
theorem Clocked.run_of_due {ps : List Pins} {c : Clocked} {w : CmdWord} (hc : c.st.cmd = some w)
    (hr : c.st.rsp = none) (hlen : ps.length = c.wait + 1) (hps : ∀ q ∈ ps, q.rst = false ∧ q.cmdValid = false) :
    ∃ t, exec (decode w) c.st = .next t ∧ c.run ps = .next { c with wait := 0, offer := none, st := t } := by
  induction ps generalizing c with
  | nil => simp at hlen
  | cons q ps ih =>
    obtain ⟨⟨hrst, hvalid⟩, hps⟩ := List.forall_mem_cons.1 hps
    cases hw : c.wait with
    | zero =>
      obtain rfl : ps = [] := by simpa [hw] using hlen
      obtain ⟨t, he, htick⟩ := Clocked.tick_of_due hc hr hw hrst hvalid
      refine ⟨t, he, ?_⟩
      rw [Clocked.run_cons htick, ← hw]
      rfl
    | succ n =>
      rw [Clocked.run_cons (Clocked.tick_of_waiting hc hr hw hrst hvalid)]
      exact ih (c := { c with wait := n, offer := none }) hc hr (by simpa [hw] using hlen) hps

/-- Settles O52: `run_of_due` leads to the held response, and `tick_of_taken` delivers it. -/
theorem everyAcceptedCommandIsAnsweredInTime : Obligations.EveryAcceptedCommandIsAnsweredInTime := by
  unfold Obligations.EveryAcceptedCommandIsAnsweredInTime
  intro c w ps last hc hr hlen hps hrst hvalid hready
  obtain ⟨t, he, hrun⟩ := Clocked.run_of_due hc hr hlen hps
  obtain ⟨hcmd, -⟩ := exec_ports he
  obtain ⟨r, hrsp, -⟩ := taken_deliver_of_exec he
  refine ⟨_, _, r, hrun, hrsp, hcmd, Clocked.tick_of_taken hrsp hrst hvalid hready, rfl, ?_⟩
  simp [hcmd]

/-- Settles O55: with latency 0 the edge of acceptance carries the command out; with latency `n + 1` it leaves `n` edges,
which `run_of_waiting` counts down and `run_of_due` completes. -/
theorem responseIsHeldAfterExactlyTheLatency : Obligations.ResponseIsHeldAfterExactlyTheLatency := by
  unfold Obligations.ResponseIsHeldAfterExactlyTheLatency
  intro c pins ps hc hr hrst hvalid hb hps hlen
  have htick := Clocked.tick_of_offer hc hr hrst hvalid hb
  rcases Clocked.begin_cases c pins.word with ⟨hl, t, he, hbegin⟩ | ⟨n, hl, hbegin⟩
  · obtain ⟨r, hrsp, -⟩ := taken_deliver_of_exec he
    obtain rfl : ps = [] := List.eq_nil_of_length_eq_zero (hlen.trans hl)
    exact ⟨fun k hk => absurd hk k.not_lt_zero, _, r, Clocked.run_cons (htick.trans hbegin) [], he, hrsp⟩
  · simp only [Clocked.run_cons (htick.trans hbegin)]
    have hn : ps.length = n + 1 := hlen.trans hl
    constructor
    · intro k hk
      have hleft : (c.onAccept pins.word n).wait = (n - k) + (ps.take k).length := by
        simp only [Clocked.onAccept_wait, List.length_take]
        omega
      obtain ⟨o, hrun⟩ := Clocked.run_of_waiting (c := c.onAccept pins.word n) (c.st.accept_cmd pins.word) hr hleft
        fun q hq => hps q (List.mem_of_mem_take hq)
      exact ⟨_, hrun, rfl, hr⟩
    · obtain ⟨t, he, hrun⟩ := Clocked.run_of_due (c := c.onAccept pins.word n) (c.st.accept_cmd pins.word) hr hn hps
      obtain ⟨r, hrsp, -⟩ := taken_deliver_of_exec he
      exact ⟨_, r, hrun, he, hrsp⟩

end Sys2Proof.Machine
end
